-- ==== Sys2Proof/Word.lean ====
section
/-! DEFINITION. The machine's word: one byte (00_scope.md R8, R9). -/

namespace Sys2Proof

/-- A register, a memory cell, an address, an operand byte: 8 bits, unsigned (R8 XLEN, R9). -/
abbrev Byte := BitVec 8

/-- A legal register index, 0 to 7 (R8 NREG, R20). -/
abbrev RegIx := Fin 8

/-- `trunc8(n) = n mod 256` (R9). -/
def trunc8 (n : Nat) : Byte := BitVec.ofNat 8 n

end Sys2Proof
end

