-- ==== Sys2Proof/Syntax.lean ====
section
/-! DEFINITION. The instructions: one constructor per row of spec/opcode_table.json (30_encoding.md R83).
A register operand is the WHOLE operand byte, as R82 has it: bytes 8 to 255 do not make the opcode
illegal (R87) and are a form of the instruction, which raises RegisterIndexOutOfRange (log 11). -/

namespace Sys2Proof

/-- An instruction with its operand bytes. -/
inductive Instr where
  /-- LDI reg, value (R120). -/
  | ldi (a imm : Byte)
  /-- PRN reg (R121). -/
  | prn (a : Byte)
  /-- HLT (R122). -/
  | hlt
  /-- MUL regA, regB (R133). -/
  | mul (a b : Byte)
  /-- ADD regA, regB (R134). -/
  | add (a b : Byte)
  /-- CMP regA, regB (R135). -/
  | cmp (a b : Byte)
  /-- POP reg (R142). -/
  | pop (a : Byte)
  /-- PUSH reg (R143). -/
  | push (a : Byte)
  /-- CALL reg (R151). -/
  | call (a : Byte)
  /-- RET (R152). -/
  | ret
  /-- JMP reg (R153). -/
  | jmp (a : Byte)
  /-- JEQ reg (R154). -/
  | jeq (a : Byte)
  /-- JNE reg (R155). -/
  | jne (a : Byte)
  deriving DecidableEq, Repr

/-- A row of the opcode map: which handler the dispatch selects (R102, R103). -/
inductive Opcode where
  | ldi | prn | hlt | mul | add | cmp | pop | push | call | ret | jmp | jeq | jne
  deriving DecidableEq, Repr

/-- The two operand kinds of R82. -/
inductive OperandKind where
  | register
  | immediate
  deriving DecidableEq, Repr

end Sys2Proof
end

