-- ==== Sys2Proof/WellFormed.lean ====
section
/-! DEFINITION. Which instructions are well formed: every register operand is 0 to 7 (30_encoding.md R82).
An ill-formed one still has its meaning: it raises RegisterIndexOutOfRange (R87, R105). -/

namespace Sys2Proof

/-- The operand bytes that are register indices, `opa` first (the operand columns of R83). -/
def Instr.registerOperands : Instr → List Byte
  | .ldi a _ => [a]
  | .prn a => [a]
  | .hlt => []
  | .mul a b => [a, b]
  | .add a b => [a, b]
  | .cmp a b => [a, b]
  | .pop a => [a]
  | .push a => [a]
  | .call a => [a]
  | .ret => []
  | .jmp a => [a]
  | .jeq a => [a]
  | .jne a => [a]

/-- Every register operand names one of the 8 registers. -/
def Instr.wf (i : Instr) : Bool := i.registerOperands.all fun a => decide (a.toNat ≤ 7)

end Sys2Proof
end

