-- ==== Sys2Proof/Decode.lean ====
section
/-! DEFINITION. The opcode dispatch (30_encoding.md R81, R83; 40_fetch_decode_execute.md R102), the decoder,
total on any bytes and rejecting by name, and after it the encoder (R91). -/

namespace Sys2Proof

/-- Why bytes are no instruction. -/
inductive DecodeError where
  /-- The first byte matches no row of the opcode map (R85). -/
  | illegalOpcode (b : Byte)
  /-- The bytes end before the instruction does (R89). -/
  | truncated
  deriving DecidableEq, Repr

/-- `dispatch(ir)`: all 8 bits of the byte against the 13 rows of R83; `none` for the other 243 (R85, R102). -/
def dispatch (ir : Byte) : Option Opcode :=
  match ir with
  | 0b10000010#8 => some .ldi
  | 0b01000111#8 => some .prn
  | 0b00000001#8 => some .hlt
  | 0b10100010#8 => some .mul
  | 0b10100000#8 => some .add
  | 0b10100111#8 => some .cmp
  | 0b01000110#8 => some .pop
  | 0b01000101#8 => some .push
  | 0b01010000#8 => some .call
  | 0b00010001#8 => some .ret
  | 0b01010100#8 => some .jmp
  | 0b01010101#8 => some .jeq
  | 0b01010110#8 => some .jne
  | _ => none

/-- The operand columns of R83: the kinds of `opa` and `opb`, as many as the format has (R80). -/
def Opcode.operandKinds : Opcode → List OperandKind
  | .ldi => [.register, .immediate]
  | .mul | .add | .cmp => [.register, .register]
  | .prn | .pop | .push | .call | .jmp | .jeq | .jne => [.register]
  | .hlt | .ret => []

/-- The number of operand bytes (R102). -/
def Opcode.operands (o : Opcode) : Nat := o.operandKinds.length

/-- `len = 1 + operands` (R102). -/
def Opcode.length (o : Opcode) : Nat := 1 + o.operands

/-- The instruction a matched row makes of the two operand bytes; a row with fewer operands leaves the
others unread (R100 phase O). -/
def Opcode.instr (o : Opcode) (opa opb : Byte) : Instr :=
  match o with
  | .ldi => .ldi opa opb
  | .prn => .prn opa
  | .hlt => .hlt
  | .mul => .mul opa opb
  | .add => .add opa opb
  | .cmp => .cmp opa opb
  | .pop => .pop opa
  | .push => .push opa
  | .call => .call opa
  | .ret => .ret
  | .jmp => .jmp opa
  | .jeq => .jeq opa
  | .jne => .jne opa

/-- Reads a row's operand bytes from the bytes after the opcode (R80, R104). -/
def Opcode.readOperands (o : Opcode) (rest : List Byte) : Except DecodeError (Instr × List Byte) :=
  match o.operands, rest with
  | 0, r => .ok (o.instr 0 0, r)
  | 1, a :: r => .ok (o.instr a 0, r)
  | 2, a :: b :: r => .ok (o.instr a b, r)
  | _, _ => .error .truncated

/-- The instruction at the head of the bytes, with the bytes after it (R80, R102, R104). -/
def decode : List Byte → Except DecodeError (Instr × List Byte)
  | [] => .error .truncated
  | ir :: rest =>
    match dispatch ir with
    | none => .error (.illegalOpcode ir)
    | some o => o.readOperands rest

/-- The opcode value of each instruction (R83). -/
def Instr.opcodeByte : Instr → Byte
  | .ldi _ _ => 0x82
  | .prn _ => 0x47
  | .hlt => 0x01
  | .mul _ _ => 0xA2
  | .add _ _ => 0xA0
  | .cmp _ _ => 0xA7
  | .pop _ => 0x46
  | .push _ => 0x45
  | .call _ => 0x50
  | .ret => 0x11
  | .jmp _ => 0x54
  | .jeq _ => 0x55
  | .jne _ => 0x56

/-- The operand bytes in the order written (R91). -/
def Instr.operandBytes : Instr → List Byte
  | .ldi a imm => [a, imm]
  | .mul a b => [a, b]
  | .add a b => [a, b]
  | .cmp a b => [a, b]
  | .prn a => [a]
  | .pop a => [a]
  | .push a => [a]
  | .call a => [a]
  | .jmp a => [a]
  | .jeq a => [a]
  | .jne a => [a]
  | .hlt => []
  | .ret => []

/-- The bytes of an instruction: the opcode, then one byte per operand (R91). -/
def encode (i : Instr) : List Byte := i.opcodeByte :: i.operandBytes

/-- The length in bytes, 1, 2 or 3 (R80). -/
def Instr.length (i : Instr) : Nat := (encode i).length

/-- The three bytes of a table word: bit 0 is the least significant bit of the first byte, and the bits
above `nbits` are 0. -/
def tableBytes (nbits w : Nat) : List Byte :=
  let v := w % 2 ^ nbits
  [BitVec.ofNat 8 v, BitVec.ofNat 8 (v / 256), BitVec.ofNat 8 (v / 65536)]

/-- The instruction the decoder reads from a word of spec/opcode_table.json. -/
def decodeTableWord (nbits w : Nat) : Option Instr :=
  match decode (tableBytes nbits w) with
  | .ok (i, _) => some i
  | .error _ => none

end Sys2Proof
end

