-- ==== Sys2Proof/Config.lean ====
section
/-! DEFINITION. The parameters of 00_scope.md R8 that are values, and the one OPEN host parameter. -/

namespace Sys2Proof.Config

/-- `SP_INDEX`: register 7 is the stack pointer (R8, R21). -/
abbrev spIndex : RegIx := 7

/-- `SP_INIT`, given by the source (R8, R23). -/
def spInit : Byte := 0xF4

/-- `PC_RESET`. The spec's decision D1 (log 4). -/
def pcReset : Byte := 0x00

/-- `GPR_RESET` of registers 0 to 6. DESIGN CHOICE of the spec, decision D2, unsafe (log 1). -/
def gprReset : Byte := 0x00

/-- `E_RESET`. DESIGN CHOICE of the spec, decision D3, unsafe (log 2). -/
def flagReset : Bool := false

/-- `MEM_FILL`: what a cell reads as that nothing has written. DESIGN CHOICE of the spec, decision D4,
unsafe (log 3). -/
def memFill : Byte := 0x00

/-- The reset value of `ir`, `opa`, `opb`: the spec's decision D5, not observable (log 5). -/
def latchReset : Byte := 0x00

/-- `MEM_SIZE` (R8). -/
def memSize : Nat := 256

/-- What the host does with a line of the program file that is neither blank nor a literal. -/
inductive LineAction where
  | skip
  | refuse
  | emit (b : Byte)
  deriving DecidableEq, Repr, Inhabited

/-- `MALFORMED_LINE_POLICY`, left OPEN by R185 (b) and decision D19: uninterpreted, so nothing in Lean
can know what it answers (log 16). -/
opaque malformedLinePolicy : List Char → LineAction

end Sys2Proof.Config
end

