-- ==== Sys2Proof/Machine/State.lean ====
section
/-! DEFINITION. The state of the core: 00_scope.md R11 is its closed list, 10_state.md R37 its reset values. -/

namespace Sys2Proof.Machine

/-- The run status (10_state.md R28). -/
inductive Status where
  | running
  | halted
  | faulted
  deriving DecidableEq, Repr

/-- What the 3-bit `cause` register can hold (60_exceptions.md R160). Its codes are `Cause.code`; codes 5
to 7 are unused, never written, and have no constructor. -/
inductive Cause where
  | none
  | illegalOpcode
  | outOfBounds
  | unsupportedALUOperation
  | registerIndexOutOfRange
  deriving DecidableEq, Repr

/-- The five conditions that raise OutOfBounds (60_exceptions.md R162). -/
inductive OutOfBoundsKind where
  | operand
  | spUnderflow
  | spOverflow
  | returnAddress
  | nextPc
  deriving DecidableEq, Repr

/-- The argument of `raise`: a cause with what `info` is to hold (60_exceptions.md R160, R167). -/
inductive Trap where
  | illegalOpcode (b : Byte)
  | outOfBounds (k : OutOfBoundsKind)
  /-- Raised by nothing: the ALU select has three values (42_alu.md R136; log 21). -/
  | unsupportedALUOperation
  | registerIndexOutOfRange (b : Byte)
  deriving DecidableEq, Repr

/-- The memory: the cells that do not hold `Config.memFill`, addresses strictly rising. -/
abbrev Memory := List Host.Cell

/-- The canonical form: addresses strictly rising, all below 256, no cell equal to what an unlisted
address reads as. -/
abbrev Memory.wf (m : Memory) : Prop :=
  (m.map Prod.fst).Pairwise (· < ·) ∧ ∀ c ∈ m, c.1 < Config.memSize ∧ c.2 ≠ Config.memFill

/-- Everything the spec gives the machine (R11). -/
structure State where
  /-- `x[0]` to `x[7]`; register 7 is the stack pointer (R20, R21). -/
  regs : Vector Byte 8
  /-- The program counter (R24). -/
  pc : Byte
  /-- The equal flag E (R26). -/
  flagE : Bool
  /-- The instruction register (R27). -/
  ir : Byte
  /-- The first operand latch (R27). -/
  opa : Byte
  /-- The second operand latch (R27). -/
  opb : Byte
  /-- The run status (R28). -/
  status : Status
  /-- The fault cause register (R29). -/
  cause : Cause
  /-- The fault information register (R29). -/
  info : Byte
  /-- The 256 memory cells (R32). -/
  mem : Memory
  /-- The output stream, oldest first (R34). -/
  out : List Byte
  deriving DecidableEq, Repr

/-- Why a step does not exist. The core's own faults are no member: they are next states (log 7). -/
inductive Fault where
  /-- Raised by `step` when `status` is HALTED: no step exists (R100, R28). Safe. -/
  | halted
  /-- Raised by `step` when `status` is FAULTED: no step exists (R100, R169). Safe. -/
  | faulted
  deriving DecidableEq, Repr

/-- Why an instruction has no meaning in the model. -/
inductive Refusal where
  /-- Raised by an arm of `exec` whose instruction is not modelled yet; there is none. Safe. -/
  | notModelled (mnemonic : String)
  deriving DecidableEq, Repr

/-- The machine right after reset (10_state.md R37; 70_reset_and_hazards.md R180). -/
def State.reset : State where
  regs := #v[Config.gprReset, Config.gprReset, Config.gprReset, Config.gprReset,
             Config.gprReset, Config.gprReset, Config.gprReset, Config.spInit]
  pc := Config.pcReset
  flagE := Config.flagReset
  ir := Config.latchReset
  opa := Config.latchReset
  opb := Config.latchReset
  status := .running
  cause := .none
  info := 0
  mem := []
  out := []

end Sys2Proof.Machine
end

