-- ==== Sys2Proof/Machine/Ops.lean ====
section
/-! DEFINITION. The named operations over registers, memory, output and the program counter, and taking a
fault (`raise`). There is no return from a fault (60_exceptions.md R169): reset is the only way out. -/

namespace Sys2Proof.Machine

/-! ### Memory (20_memory.md R50) -/

/-- `MemRead(addr, 1)`: the content of the cell (R50). -/
def Memory.read : Memory → Byte → Byte
  | [], _ => Config.memFill
  | (k, v) :: m, a => if k = a.toNat then v else Memory.read m a

/-- The cell `k` holding `v`, put where its address belongs, replacing what the cell held. -/
def Memory.insertCell (k : Nat) (v : Byte) : Memory → Memory
  | [] => [(k, v)]
  | (k', w) :: m =>
    if k < k' then (k, v) :: (k', w) :: m
    else if k = k' then (k, v) :: m
    else (k', w) :: Memory.insertCell k v m

/-- The memory with nothing listed for the cell `k`. -/
def Memory.eraseCell (k : Nat) : Memory → Memory
  | [] => []
  | (k', w) :: m => if k' = k then Memory.eraseCell k m else (k', w) :: Memory.eraseCell k m

/-- `MemWrite(addr, 1, v)`: replaces the content of the one cell (R50); the byte an unlisted address reads as
is stored by listing nothing, which keeps the canonical form. -/
def Memory.write (m : Memory) (a v : Byte) : Memory :=
  if v = Config.memFill then Memory.eraseCell a.toNat m else Memory.insertCell a.toNat v m

/-- Stores the bytes at consecutive addresses from `a` on, as far as addresses exist (20_memory.md R52). -/
def Memory.placeBytes : List Byte → Nat → Memory → Memory
  | [], _, m => m
  | b :: bs, a, m =>
    if a < Config.memSize then Memory.placeBytes bs (a + 1) (m.write (BitVec.ofNat 8 a) b) else m

/-! ### Registers, flag, output, program counter -/

/-- `x[i]` (10_state.md R20). -/
def State.reg (s : State) (i : RegIx) : Byte := s.regs.get i

/-- `x[i] <- v` (R20). -/
def State.setReg (s : State) (i : RegIx) (v : Byte) : State := { s with regs := s.regs.set i.val v i.isLt }

/-- `SP`, the same 8 bits as `x[7]` (R21). -/
def State.sp (s : State) : Byte := s.reg Config.spIndex

/-- `SP <- v` (R21). -/
def State.setSp (s : State) (v : Byte) : State := s.setReg Config.spIndex v

/-- `pc <- t` (R24). -/
def State.setPc (s : State) (t : Byte) : State := { s with pc := t }

/-- `E <- b` (R26). -/
def State.setFlag (s : State) (b : Bool) : State := { s with flagE := b }

/-- `status <- HALTED` (41_data_and_system.md R122). -/
def State.halt (s : State) : State := { s with status := .halted }

/-- `Emit(v)` (R34). -/
def State.emit (s : State) (v : Byte) : State := { s with out := s.out ++ [v] }

/-- `MemRead(a, 1)`. -/
def State.load (s : State) (a : Byte) : Byte := s.mem.read a

/-- `MemWrite(a, 1, v)`. -/
def State.store (s : State) (a v : Byte) : State := { s with mem := s.mem.write a v }

/-! ### Taking a fault (60_exceptions.md R160, R166, R167) -/

/-- The code `raise` writes to the 3-bit `cause` register (R160). -/
def Cause.code : Cause → BitVec 3
  | .none => 0
  | .illegalOpcode => 1
  | .outOfBounds => 2
  | .unsupportedALUOperation => 3
  | .registerIndexOutOfRange => 4

/-- The sub-code `info` holds for OutOfBounds (R162). -/
def OutOfBoundsKind.subCode : OutOfBoundsKind → Byte
  | .operand => 1
  | .spUnderflow => 2
  | .spOverflow => 3
  | .returnAddress => 4
  | .nextPc => 5

/-- What `cause` becomes (R160). -/
def Trap.cause : Trap → Cause
  | .illegalOpcode _ => .illegalOpcode
  | .outOfBounds _ => .outOfBounds
  | .unsupportedALUOperation => .unsupportedALUOperation
  | .registerIndexOutOfRange _ => .registerIndexOutOfRange

/-- What `info` becomes (R167). -/
def Trap.info : Trap → Byte
  | .illegalOpcode b => b
  | .outOfBounds k => k.subCode
  | .unsupportedALUOperation => 0
  | .registerIndexOutOfRange b => b

/-- `raise <Cause>(i)`: FAULTED, `cause` and `info` written, nothing else (R166). -/
def raise (f : Trap) (s : State) : State :=
  { s with status := .faulted, cause := f.cause, info := f.info }

/-- Ends an instruction all or nothing (40_fetch_decode_execute.md R108): where every check passed, the
state with all its writes, and otherwise the fault taken on the state it began in. -/
def attempt (s : State) (r : Except Trap State) : Host.Outcome State Fault Refusal :=
  match r with
  | .ok t => .next t
  | .error f => .next (raise f s)

/-! ### The checks on addresses, formed exactly (20_memory.md R52) -/

/-- The sequential next PC, `pc + len`, or OutOfBounds(NEXT_PC) (40_fetch_decode_execute.md R107). -/
def nextPc (len : Nat) (s : State) : Except Trap Byte :=
  if s.pc.toNat + len > 255 then .error (.outOfBounds .nextPc) else .ok (trunc8 (s.pc.toNat + len))

/-- CALL's return address `pc + 2`, or OutOfBounds(RETURN_ADDRESS) (44_control_transfer.md R151). -/
def returnAddress (s : State) : Except Trap Byte :=
  if s.pc.toNat + 2 > 255 then .error (.outOfBounds .returnAddress) else .ok (trunc8 (s.pc.toNat + 2))

/-- A push's new stack pointer, which is also the address it stores at: `SP - 1`, or
OutOfBounds(SP_UNDERFLOW) (43_stack.md R141). -/
def pushSlot (s : State) : Except Trap Byte :=
  if s.sp.toNat = 0 then .error (.outOfBounds .spUnderflow) else .ok (trunc8 (s.sp.toNat - 1))

/-- A pop's new stack pointer: `v + 1`, or OutOfBounds(SP_OVERFLOW), where `v` is the stack-pointer value
being incremented (43_stack.md R141). -/
def popIncrement (v : Byte) : Except Trap Byte :=
  if v.toNat + 1 > 255 then .error (.outOfBounds .spOverflow) else .ok (trunc8 (v.toNat + 1))

end Sys2Proof.Machine
end

