-- ==== Sys2Proof/Machine/Flags.lean ====
section
/-! DEFINITION. The one flag E (10_state.md R26): what CMP computes and what JEQ and JNE test. There is no
carry, overflow, zero, sign, less or greater flag. -/

namespace Sys2Proof.Machine

/-- CMP's new E: the two 8-bit patterns are equal (42_alu.md R135). -/
def equalFlag (x y : Byte) : Bool := decide (x = y)

/-- JEQ jumps when E = 1 (44_control_transfer.md R154). -/
def jumpsIfEqual (s : State) : Bool := s.flagE

/-- JNE jumps when E = 0 (44_control_transfer.md R155). -/
def jumpsIfNotEqual (s : State) : Bool := !s.flagE

end Sys2Proof.Machine
end

