-- ==== Sys2Proof/Machine/Operands.lean ====
section
/-! DEFINITION. The operand forms: a register index and the immediate of LDI (30_encoding.md R82), which is
its byte unchanged and needs no operation; the checks of phases O and R. -/

namespace Sys2Proof.Machine

/-- Phase O: the `n` operand bytes lie at addresses that exist, or OutOfBounds(OPERAND)
(40_fetch_decode_execute.md R104). -/
def operandsInRange (n : Nat) (s : State) : Except Trap Unit :=
  if s.pc.toNat + n > 255 then .error (.outOfBounds .operand) else .ok ()

/-- Phase R: the register a register-index operand names, not masked, or RegisterIndexOutOfRange with the
operand byte (R105; 30_encoding.md R87). -/
def registerIndex (b : Byte) : Except Trap RegIx :=
  if h : b.toNat < 8 then .ok ⟨b.toNat, h⟩ else .error (.registerIndexOutOfRange b)

/-- Phases O and R of an instruction with one operand, a register. -/
def oneRegister (a : Byte) (s : State) : Except Trap RegIx := do
  operandsInRange 1 s
  registerIndex a

/-- Phases O and R of an instruction with two operands, both registers: `opa` is checked first (R105). -/
def twoRegisters (a b : Byte) (s : State) : Except Trap (RegIx × RegIx) := do
  operandsInRange 2 s
  let ra ← registerIndex a
  let rb ← registerIndex b
  return (ra, rb)

/-- Phases O and R of LDI: a register and an immediate, which is not checked (R105). -/
def registerAndImmediate (a : Byte) (s : State) : Except Trap RegIx := do
  operandsInRange 2 s
  registerIndex a

end Sys2Proof.Machine
end

