-- ==== Sys2Proof/Machine/Alu.lean ====
section
/-! DEFINITION. The ALU and MUL, ADD, CMP (42_alu.md). -/

namespace Sys2Proof.Machine

/-- The operation select (R130). It has no fourth value, so UnsupportedALUOperation has no case (R136). -/
inductive AluOp where
  | add
  | mul
  | cmp
  deriving DecidableEq, Repr

/-- The select the dispatch logic produces from the opcode: the three ALU rows and no other (R130;
40_fetch_decode_execute.md R103). -/
def aluSelect : Opcode → Option AluOp
  | .add => some .add
  | .mul => some .mul
  | .cmp => some .cmp
  | .ldi | .prn | .hlt | .pop | .push | .call | .ret | .jmp | .jeq | .jne => none

/-- `trunc8(x + y)` (R131). -/
def aluSum (x y : Byte) : Byte := trunc8 (x.toNat + y.toNat)

/-- `trunc8(x * y)` (R132). -/
def aluProduct (x y : Byte) : Byte := trunc8 (x.toNat * y.toNat)

/-- The ALU's output written back: `x[a]` for ADD and MUL, E for CMP (R130). -/
def aluWrite (op : AluOp) (ra rb : RegIx) (s : State) : State :=
  match op with
  | .add => s.setReg ra (aluSum (s.reg ra) (s.reg rb))
  | .mul => s.setReg ra (aluProduct (s.reg ra) (s.reg rb))
  | .cmp => s.setFlag (equalFlag (s.reg ra) (s.reg rb))

/-- The shape the three ALU instructions share: two register operands, the next-PC check, the ALU, pc + 3. -/
def aluInstr (op : AluOp) (a b : Byte) (s : State) : Host.Outcome State Fault Refusal :=
  attempt s do
    let (ra, rb) ← twoRegisters a b s
    let t ← nextPc 3 s
    return (aluWrite op ra rb s).setPc t

/-- MUL (R133). -/
def execMul (a b : Byte) (s : State) : Host.Outcome State Fault Refusal := aluInstr .mul a b s

/-- ADD (R134). -/
def execAdd (a b : Byte) (s : State) : Host.Outcome State Fault Refusal := aluInstr .add a b s

/-- CMP (R135). -/
def execCmp (a b : Byte) (s : State) : Host.Outcome State Fault Refusal := aluInstr .cmp a b s

end Sys2Proof.Machine
end

