-- ==== Sys2Proof/Machine/Control.lean ====
section
/-! DEFINITION. CALL, RET, JMP, JEQ, JNE (44_control_transfer.md). Targets are absolute and unchecked (R150). -/

namespace Sys2Proof.Machine

/-- CALL: pushes `pc + 2`, then `pc <- x[a]`; with operand 7 the target is the decremented stack pointer
(R151, decision D30, log 12). -/
def execCall (a : Byte) (s : State) : Host.Outcome State Fault Refusal :=
  attempt s do
    let ra ← oneRegister a s
    let back ← returnAddress s
    let slot ← pushSlot s
    let target := if ra = Config.spIndex then slot else s.reg ra
    return ((s.setSp slot).store slot back).setPc target

/-- RET: `pc <- mem[SP]`, `x[7]` incremented (R152). -/
def execRet (s : State) : Host.Outcome State Fault Refusal :=
  attempt s do
    let v := s.load s.sp
    let sp' ← popIncrement s.sp
    return (s.setSp sp').setPc v

/-- JMP: `pc <- x[a]` (R153). -/
def execJmp (a : Byte) (s : State) : Host.Outcome State Fault Refusal :=
  attempt s do
    let ra ← oneRegister a s
    return s.setPc (s.reg ra)

/-- Where a conditional jump goes: the register's content when taken, and otherwise the sequential next PC, which
alone is checked (R154, R155). -/
def branchTarget (taken : Bool) (ra : RegIx) (s : State) : Except Trap Byte :=
  if taken then .ok (s.reg ra) else nextPc 2 s

/-- The branch control of JEQ and JNE: the register-index check is made whether or not the jump is taken
(R105, R154, R155). -/
def branch (taken : Bool) (a : Byte) (s : State) : Host.Outcome State Fault Refusal :=
  attempt s do
    let ra ← oneRegister a s
    let t ← branchTarget taken ra s
    return s.setPc t

/-- JEQ (R154). -/
def execJeq (a : Byte) (s : State) : Host.Outcome State Fault Refusal := branch (jumpsIfEqual s) a s

/-- JNE (R155). -/
def execJne (a : Byte) (s : State) : Host.Outcome State Fault Refusal := branch (jumpsIfNotEqual s) a s

end Sys2Proof.Machine
end

