-- ==== Sys2Proof/Machine/Data.lean ====
section
/-! DEFINITION. LDI, PRN, HLT (41_data_and_system.md). Each meaning is phases O, R and X of the step. -/

namespace Sys2Proof.Machine

/-- LDI: `x[a] <- imm`, pc + 3 (R120). -/
def execLdi (a imm : Byte) (s : State) : Host.Outcome State Fault Refusal :=
  attempt s do
    let ra ← registerAndImmediate a s
    let t ← nextPc 3 s
    return (s.setReg ra imm).setPc t

/-- PRN: emit `x[a]`, pc + 2 (R121). -/
def execPrn (a : Byte) (s : State) : Host.Outcome State Fault Refusal :=
  attempt s do
    let ra ← oneRegister a s
    let t ← nextPc 2 s
    return (s.emit (s.reg ra)).setPc t

/-- HLT: status HALTED; it cannot fault and does not write the PC (R122). -/
def execHlt (s : State) : Host.Outcome State Fault Refusal :=
  attempt s do
    return s.halt

end Sys2Proof.Machine
end

