-- ==== Sys2Proof/Machine/Stack.lean ====
section
/-! DEFINITION. POP and PUSH (43_stack.md). With operand 7 the two actions are made in the order the spec
writes them, SP being `x[7]` (decision D30, log 12). -/

namespace Sys2Proof.Machine

/-- POP: `x[a] <- mem[SP]`, then `x[7]` incremented, pc + 2 (R142). -/
def execPop (a : Byte) (s : State) : Host.Outcome State Fault Refusal :=
  attempt s do
    let ra ← oneRegister a s
    let v := s.load s.sp
    let base := if ra = Config.spIndex then v else s.sp
    let sp' ← popIncrement base
    let t ← nextPc 2 s
    return ((s.setReg ra v).setSp sp').setPc t

/-- PUSH: `x[7]` decremented, then `mem[x[7]] <- x[a]`, pc + 2 (R143). -/
def execPush (a : Byte) (s : State) : Host.Outcome State Fault Refusal :=
  attempt s do
    let ra ← oneRegister a s
    let slot ← pushSlot s
    let t ← nextPc 2 s
    let val := if ra = Config.spIndex then slot else s.reg ra
    return ((s.setSp slot).store slot val).setPc t

end Sys2Proof.Machine
end

