-- ==== Sys2Proof/Machine/Fetch.lean ====
section
/-! DEFINITION. Phases F, D and O of the step (40_fetch_decode_execute.md R100 to R104): what is fetched, what
it decodes to, and the latches it leaves loaded. -/

namespace Sys2Proof.Machine

/-- The byte at `pc + k`, `none` where that address exceeds 255 (R104; also the trace tap of
60_exceptions.md R176). -/
def byteAfter (s : State) (k : Nat) : Option Byte :=
  if s.pc.toNat + k > 255 then none else some (s.load (trunc8 (s.pc.toNat + k)))

/-- The bytes an instruction at `pc` can have: the opcode byte, which always exists (R101), and those of
the next two addresses that exist. -/
def fetchWindow (s : State) : List Byte :=
  s.load s.pc :: ((byteAfter s 1).toList ++ (byteAfter s 2).toList)

/-- What the sequencer raises where the bytes are no instruction (R102, R104). -/
def decodeTrap : DecodeError → Trap
  | .illegalOpcode b => .illegalOpcode b
  | .truncated => .outOfBounds .operand

/-- The instruction at `pc`, or the fault of phase D or O (R102, R104). -/
def fetchInstr (s : State) : Except Trap Instr :=
  match decode (fetchWindow s) with
  | .ok (i, _) => .ok i
  | .error e => .error (decodeTrap e)

/-- How many operand bytes the row of an opcode byte has, none where no row matches (R102). -/
def operandsOf (ir : Byte) : Nat :=
  match dispatch ir with
  | some o => o.operands
  | none => 0

/-- `ir <- MemRead(pc, 1)` (R101). -/
def loadIr (s : State) : State := { s with ir := s.load s.pc }

/-- `opa <- MemRead(pc + 1, 1)` for a row with an operand, where that address exists (R104). -/
def loadOpa (s : State) : State :=
  match byteAfter s 1 with
  | some b => if 1 ≤ operandsOf s.ir then { s with opa := b } else s
  | none => s

/-- `opb <- MemRead(pc + 2, 1)` for a row with two operands, where that address exists (R104). -/
def loadOpb (s : State) : State :=
  match byteAfter s 2 with
  | some b => if 2 ≤ operandsOf s.ir then { s with opb := b } else s
  | none => s

/-- The state phases F and O leave: the latches loaded that the step reads, in the order read, and nothing
else (R27, R100; log 5). -/
def loadLatches (s : State) : State := loadOpb (loadOpa (loadIr s))

/-- Why no step exists: only a RUNNING core takes one (R100; log 6). -/
def stopped (s : State) : Option Fault :=
  match s.status with
  | .running => none
  | .halted => some .halted
  | .faulted => some .faulted

/-- The state with bytes stored from `pc` on, and RUNNING, so that the next step fetches them (log 23). -/
def placeAtPc (bs : List Byte) (s : State) : State :=
  { s with mem := Memory.placeBytes bs s.pc.toNat s.mem, status := .running }

end Sys2Proof.Machine
end

