-- ==== Sys2Proof/Machine/Step.lean ====
section
/-! DEFINITION. One step: fetch, decode, operand fetch, execute (40_fetch_decode_execute.md R100). -/

namespace Sys2Proof.Machine

/-- One whole instruction (R100). A core that is not RUNNING has no step: a named stop. A fault of phases
D and O is taken on the state with its latches loaded; phases R and X are the instruction's meaning. -/
def step (s : State) : Host.Outcome State Fault Refusal :=
  match stopped s with
  | some f => .fault f
  | none =>
    match fetchInstr s with
    | .ok i => exec i (loadLatches s)
    | .error f => .next (raise f (loadLatches s))

/-- `s` with the table word's three bytes where `step` fetches, bits above `nbits` zero (log 23). -/
def State.withFetchWord (s : State) (nbits w : Nat) : State := placeAtPc (tableBytes nbits w) s

end Sys2Proof.Machine
end

