-- ==== Sys2Proof/Machine/HostPort.lean ====
section
/-! DEFINITION. The host's side of the core (70_reset_and_hazards.md): reset, program load, observation, and,
though 00_scope.md R5 puts them outside the hardware, the program file, the rendering of output and the
exit codes. `step` uses none of it. -/

namespace Sys2Proof.Machine

/-- Reset may be asserted in any status and always has this effect (R180). -/
def assertReset (_ : State) : State := State.reset

/-- Why the host refuses a program before any step. -/
inductive LoadError where
  /-- The program file cannot be opened (R184). -/
  | programNotFound
  /-- More than 256 bytes (R185 (a)). -/
  | outOfBounds
  /-- A malformed line, under a policy that refuses it (R185 (b), OPEN). -/
  | lineRefused
  deriving DecidableEq, Repr

/-- The loader's writes from address 0, before the first step (R182); more than 256 bytes are refused (R185 (a)). -/
def loadProgram (program : List Byte) (s : State) : Except LoadError State :=
  if program.length > Config.memSize then .error .outOfBounds
  else .ok { s with mem := Memory.placeBytes program 0 s.mem }

/-- The launch state: reset, then load (R181). -/
def launch (program : List Byte) : Except LoadError State := loadProgram program State.reset

/-! ### The program text file (R183) -/

/-- A line without its comment, stripped of white space at both ends (R183). -/
def lineContent (line : List Char) : List Char :=
  let l := (line.takeWhile (· != '#')).dropWhile Char.isWhitespace
  (l.reverse.dropWhile Char.isWhitespace).reverse

/-- One binary digit. -/
def bitOf : Char → Option Nat
  | '0' => some 0
  | '1' => some 1
  | _ => none

/-- An 8-bit binary literal, leftmost character bit 7 (R183). -/
def byteLiteral (l : List Char) : Option Byte :=
  match l.mapM bitOf with
  | some bits => if bits.length = 8 then some (trunc8 (bits.foldl (fun n b => 2 * n + b) 0)) else none
  | none => none

/-- The bytes of the lines, in file order; a skipped line consumes no address, and a malformed one gets what
the OPEN policy says (R183, R185 (b)). -/
def programOfLines : List (List Char) → Except LoadError (List Byte)
  | [] => .ok []
  | line :: rest => do
    let l := lineContent line
    let here ←
      if l = [] then .ok []
      else match byteLiteral l with
        | some b => .ok [b]
        | none => match Config.malformedLinePolicy l with
          | .skip => .ok []
          | .emit b => .ok [b]
          | .refuse => .error .lineRefused
    let more ← programOfLines rest
    return here ++ more

/-- The characters of a file cut into lines at each newline (log 16). -/
def fileLines : List Char → List (List Char)
  | [] => [[]]
  | c :: cs =>
    if c = '\n' then [] :: fileLines cs
    else match fileLines cs with
      | l :: ls => (c :: l) :: ls
      | [] => [[c]]

/-- What the host does with a program file: `none` is a path that cannot be opened (R184). DESIGN CHOICE: the whole
text is read before the image's length is checked, so a file with both a malformed line that the policy refuses and more
than 256 bytes is refused for the line, wherever it stands; the spec gives the two refusals no order (R185, log 25). -/
def launchFile (file : Option (List Char)) : Except LoadError State :=
  match file with
  | none => .error .programNotFound
  | some text => do
    let program ← programOfLines (fileLines text)
    launch program

/-! ### What the host sees (10_state.md R36) -/

/-- One line of output without its line end: the shortest unsigned decimal numeral (R190). -/
def renderValue (v : Byte) : List Char := Nat.toDigits 10 v.toNat

/-- The lines of the output stream, in execution order (R190). -/
def renderOutput (s : State) : List (List Char) := s.out.map renderValue

/-- The exit code at the end of a run, `none` while it goes on (R191). -/
def exitCode (s : State) : Option Nat :=
  match s.status with
  | .running => none
  | .halted => some 0
  | .faulted =>
    match s.cause with
    | .none => none
    | .illegalOpcode => some 3
    | .outOfBounds => some 4
    | .unsupportedALUOperation => some 5
    | .registerIndexOutOfRange => some 6

/-- The exit code where no run began; the spec gives none for a refused line (R191). -/
def LoadError.exitCode : LoadError → Option Nat
  | .programNotFound => some 2
  | .outOfBounds => some 4
  | .lineRefused => none

/-- The optional trace taps (60_exceptions.md R176). -/
structure TraceSample where
  pc : Byte
  bytes : List (Option Byte)
  regs : Vector Byte 8
  deriving DecidableEq, Repr

/-- The taps sampled between steps; one beyond address 255 shows nothing (R176, log 22). -/
def traceSample (s : State) : TraceSample :=
  { pc := s.pc, bytes := [byteAfter s 0, byteAfter s 1, byteAfter s 2], regs := s.regs }

end Sys2Proof.Machine
end

