-- ==== Sys2Proof/Machine/Run.lean ====
section
/-! DEFINITION. A run of the core and the executor with a step budget (40_fetch_decode_execute.md R109; the end of
a run is 70_reset_and_hazards.md R187). The core has no step limit of its own: the budget is the executor's. -/

namespace Sys2Proof.Machine

/-- The state after `n` steps of the run from `s`; where the run ends sooner, its last state (log 26). -/
def stateAfter : Nat → State → State
  | 0, s => s
  | n + 1, s =>
    match step s with
    | .next t => stateAfter n t
    | .fault _ => s
    | .refused _ => s

/-- The run from `s` ends with its `n`-th step: the state after it is the first that is not RUNNING (R187). -/
abbrev EndsAfter (s : State) (n : Nat) : Prop :=
  (stateAfter n s).status ≠ .running ∧ ∀ k, k < n → (stateAfter k s).status = .running

/-- What the executor reports (R109). -/
inductive RunEnd where
  /-- A HLT executed within the budget; `s` is the run's last state. -/
  | halted (s : State)
  /-- A step raised within the budget; `s` is the run's last state. -/
  | faulted (s : State)
  /-- The budget is spent and the core still RUNNING: neither HALTED nor FAULTED. `s` is where it stands. -/
  | exhausted (s : State)
  deriving DecidableEq, Repr

/-- The executor: at most `budget` steps from `s` (R109). -/
def runFor (budget : Nat) (s : State) : RunEnd :=
  match (stateAfter budget s).status with
  | .running => .exhausted (stateAfter budget s)
  | .halted => .halted (stateAfter budget s)
  | .faulted => .faulted (stateAfter budget s)

/-- The run of a program image: from the reset state with the image loaded (R109, R181), which the host may refuse to
begin (R185 (a)). -/
def runProgram (budget : Nat) (program : List Byte) : Except LoadError RunEnd :=
  (launch program).map (runFor budget)

end Sys2Proof.Machine
end

