-- ==== Sys2Proof/Safety.lean ====
section
/-! DEFINITION. What counts as a good state and a safe step, in the terms the statements use: the state
invariant (10_state.md R38), the table of fault conditions (60_exceptions.md R178), the words of frames, of the stack and
of program texts. -/

namespace Sys2Proof.Machine

/-! ### The invariant -/

/-- A trap the core can raise: IllegalOpcode only for a byte of no row, RegisterIndexOutOfRange only for a byte
above 7, UnsupportedALUOperation never (R161, R163, R164). -/
abbrev Trap.raisable : Trap → Prop
  | .illegalOpcode b => dispatch b = none
  | .outOfBounds _ => True
  | .unsupportedALUOperation => False
  | .registerIndexOutOfRange b => 7 < b.toNat

/-- `info` holds what `cause` says it holds (R160, R162, R167). -/
def State.infoMatchesCause (s : State) : Bool :=
  match s.cause with
  | .none => decide (s.info = 0)
  | .illegalOpcode => decide (dispatch s.info = none)
  | .outOfBounds => decide (1 ≤ s.info.toNat ∧ s.info.toNat ≤ 5)
  | .unsupportedALUOperation => false
  | .registerIndexOutOfRange => decide (7 < s.info.toNat)

/-- The invariant of R38 with what R29 and R160 say of `cause` and `info`: the memory is in its canonical form,
`cause` is not NONE exactly when `status` is FAULTED, and `info` holds what `cause` says. -/
abbrev State.Inv (s : State) : Prop :=
  s.mem.wf ∧ (s.cause ≠ .none ↔ s.status = .faulted) ∧ s.infoMatchesCause = true

/-! ### The fault conditions, instruction by instruction (R178) -/

/-- The trap of the first condition that holds, in priority order, left first. -/
def firstFault : List (Bool × Trap) → Option Trap
  | [] => none
  | (c, f) :: rest => if c then some f else firstFault rest

/-- Table R178: the fault an instruction at `pc` raises, `none` where it completes. -/
def faultTable (i : Instr) (s : State) : Option Trap :=
  let pc := s.pc.toNat
  let sp := (s.reg 7).toNat
  let bad (a : Byte) : Bool × Trap := (decide (7 < a.toNat), .registerIndexOutOfRange a)
  let operand (c : Bool) : Bool × Trap := (c, .outOfBounds .operand)
  let next (c : Bool) : Bool × Trap := (c, .outOfBounds .nextPc)
  firstFault <| match i with
  | .ldi a _ => [operand (254 ≤ pc), bad a, next (pc = 253)]
  | .prn a => [operand (pc = 255), bad a, next (pc = 254)]
  | .hlt => []
  | .mul a b => [operand (254 ≤ pc), bad a, bad b, next (pc = 253)]
  | .add a b => [operand (254 ≤ pc), bad a, bad b, next (pc = 253)]
  | .cmp a b => [operand (254 ≤ pc), bad a, bad b, next (pc = 253)]
  | .pop a =>
    [operand (pc = 255), bad a,
     ((if a = 7 then (s.load (s.reg 7)).toNat else sp) = 255, .outOfBounds .spOverflow), next (pc = 254)]
  | .push a => [operand (pc = 255), bad a, (sp = 0, .outOfBounds .spUnderflow), next (pc = 254)]
  | .call a =>
    [operand (pc = 255), bad a, (pc = 254, .outOfBounds .returnAddress), (sp = 0, .outOfBounds .spUnderflow)]
  | .ret => [(sp = 255, .outOfBounds .spOverflow)]
  | .jmp a => [operand (pc = 255), bad a]
  | .jeq a => [operand (pc = 255), bad a, next (!s.flagE && pc = 254)]
  | .jne a => [operand (pc = 255), bad a, next (s.flagE && pc = 254)]

/-! ### Register use, instruction by instruction (10_state.md R22) -/

/-- The registers an instruction writes where it completes (R22, column "registers written"). -/
def registersWritten : Instr → List Nat
  | .ldi a _ => [a.toNat]
  | .prn _ => []
  | .hlt => []
  | .mul a _ => [a.toNat]
  | .add a _ => [a.toNat]
  | .cmp _ _ => []
  | .pop a => [a.toNat, 7]
  | .push _ => [7]
  | .call _ => [7]
  | .ret => [7]
  | .jmp _ => []
  | .jeq _ => []
  | .jne _ => []

/-- The registers an instruction reads (R22, column "registers read"). -/
def registersRead (i : Instr) (s : State) : List Nat :=
  match i with
  | .ldi _ _ => []
  | .prn a => [a.toNat]
  | .hlt => []
  | .mul a b => [a.toNat, b.toNat]
  | .add a b => [a.toNat, b.toNat]
  | .cmp a b => [a.toNat, b.toNat]
  | .pop _ => [7]
  | .push a => [7, a.toNat]
  | .call a => [7, a.toNat]
  | .ret => [7]
  | .jmp a => [a.toNat]
  | .jeq a => if s.flagE then [a.toNat] else []
  | .jne a => if s.flagE then [] else [a.toNat]

/-! ### The words of frames -/

/-- The operand byte that names a register: every legal register operand is one of these (R82, R91). -/
def regByte (r : RegIx) : Byte := BitVec.ofNat 8 r.val

/-- Every register but those listed holds what it held. -/
abbrev SameRegsExcept (written : List RegIx) (s t : State) : Prop := ∀ r, r ∉ written → t.reg r = s.reg r

/-- Every byte of memory reads as before. -/
abbrev SameMemory (s t : State) : Prop := ∀ a : Byte, t.load a = s.load a

/-- The run status, the fault registers and the latches hold what they held. -/
abbrev SameControl (s t : State) : Prop :=
  t.status = s.status ∧ t.cause = s.cause ∧ t.info = s.info ∧ t.ir = s.ir ∧ t.opa = s.opa ∧ t.opb = s.opb

/-- Registers, PC, E, memory and output are as they were (the frame of a fault, R108, R166). -/
abbrev SameArchitecture (s t : State) : Prop :=
  SameRegsExcept [] s t ∧ t.pc = s.pc ∧ t.flagE = s.flagE ∧ SameMemory s t ∧ t.out = s.out

/-- Every stack instruction in `t` uses `v` as the stack pointer, and register 7 holds it: PUSH and CALL store just below
`v`, POP and RET read the cell `v`, and register 7 holds the moved pointer after each (10_state.md R21; 43_stack.md
R140). -/
structure StackPointerIs (v : Byte) (t : State) : Prop where
  reg : t.reg 7 = v
  push : ∀ r : RegIx, r ≠ 7 → t.pc.toNat ≤ 253 → 1 ≤ v.toNat →
    ∃ u, exec (.push (regByte r)) t = .next u ∧ (u.reg 7).toNat + 1 = v.toNat ∧ u.load (u.reg 7) = t.reg r ∧
      ∀ b, b ≠ u.reg 7 → u.load b = t.load b
  call : ∀ r : RegIx, r ≠ 7 → t.pc.toNat ≤ 253 → 1 ≤ v.toNat →
    ∃ u, exec (.call (regByte r)) t = .next u ∧ (u.reg 7).toNat + 1 = v.toNat ∧
      (u.load (u.reg 7)).toNat = t.pc.toNat + 2 ∧ ∀ b, b ≠ u.reg 7 → u.load b = t.load b
  pop : ∀ r : RegIx, r ≠ 7 → t.pc.toNat ≤ 253 → v.toNat ≤ 254 →
    ∃ u, exec (.pop (regByte r)) t = .next u ∧ u.reg r = t.load v ∧ (u.reg 7).toNat = v.toNat + 1
  ret : v.toNat ≤ 254 → ∃ u, exec .ret t = .next u ∧ u.pc = t.load v ∧ (u.reg 7).toNat = v.toNat + 1

/-- The bytes of `i` lie at `pc` and the addresses after it, none of them beyond 255 (R80, R91). -/
abbrev State.bytesAtPc (s : State) (i : Instr) : Prop :=
  s.pc.toNat + i.length ≤ 256 ∧
    ∀ k : Fin 3, ∀ b, (encode i)[k.val]? = some b → s.load (trunc8 (s.pc.toNat + k.val)) = b

/-! ### Program texts (70_reset_and_hazards.md R183) -/

/-- A well-formed line of a program text: white space, a byte's literal or nothing, white space, a comment or nothing. -/
structure TextLine where
  before : List Char
  value : Option Byte
  after : List Char
  comment : Option (List Char)
  deriving DecidableEq, Repr

/-- The 8-digit literal of a byte, leftmost digit bit 7. -/
def literalOf (b : Byte) : List Char := [7, 6, 5, 4, 3, 2, 1, 0].map fun k => if b.getLsbD k then '1' else '0'

/-- The characters of the line. -/
def TextLine.chars (l : TextLine) : List Char :=
  l.before ++ (l.value.map literalOf).getD [] ++ l.after ++ (l.comment.map ('#' :: ·)).getD []

/-- What surrounds the literal is white space. -/
abbrev TextLine.wf (l : TextLine) : Prop := l.before.all Char.isWhitespace ∧ l.after.all Char.isWhitespace

end Sys2Proof.Machine
end

