-- ==== Sys2Proof/Certificates/Slice0/Obligations.lean ====
section
/-! DEFINITION. The statements for the provers, from the numbered rules of spec/. A register operand is written
`regByte r`: every legal one is of that form, and the illegal ones are in FaultsExactlyAsTabulated. The meanings
do not look at `status` (log 8); what a core that is not RUNNING does is StoppedCoreHasNoStep. -/

open Sys2Proof Sys2Proof.Machine

/-! ### Data and system instructions -/

/-- LDI (41_data_and_system.md R120, its pseudocode where no check fails): `x[a] <- imm`, register 7 included. -/
def Obligations.LdiLoadsTheImmediate : Prop :=
  ∀ (r : RegIx) (imm : Byte) (s : State), s.pc.toNat ≤ 252 →
    ∃ t, exec (.ldi (regByte r) imm) s = .next t ∧
      t.reg r = imm ∧ SameRegsExcept [r] s t ∧ t.pc.toNat = s.pc.toNat + 3 ∧
      t.flagE = s.flagE ∧ SameMemory s t ∧ t.out = s.out ∧ SameControl s t

/-- PRN (41_data_and_system.md R121, its pseudocode where no check fails). That it always completes is the
spec's decision D24 (log 15). -/
def Obligations.PrnEmitsTheRegister : Prop :=
  ∀ (r : RegIx) (s : State), s.pc.toNat ≤ 253 →
    ∃ t, exec (.prn (regByte r)) s = .next t ∧
      t.out = s.out ++ [s.reg r] ∧ SameRegsExcept [] s t ∧ t.pc.toNat = s.pc.toNat + 2 ∧
      t.flagE = s.flagE ∧ SameMemory s t ∧ SameControl s t

/-- HLT (41_data_and_system.md R122): at any PC, and it faults never. That the PC stays is the spec's decision
D14 (log 18). -/
def Obligations.HltHaltsAndChangesNothingElse : Prop :=
  ∀ s : State, ∃ t, exec .hlt s = .next t ∧ t.status = .halted ∧ SameArchitecture s t ∧
    t.cause = s.cause ∧ t.info = s.info ∧ t.ir = s.ir ∧ t.opa = s.opa ∧ t.opb = s.opb

/-! ### The ALU -/

/-- ADD and the arithmetic law R131: the sum modulo 256, whichever operand order, read signed or unsigned; no
overflow faults and nothing else records it. -/
def Obligations.AddWritesTheSumModulo256 : Prop :=
  ∀ (a b : RegIx) (s : State), s.pc.toNat ≤ 252 →
    ∃ t, exec (.add (regByte a) (regByte b)) s = .next t ∧
      (t.reg a).toNat = ((s.reg a).toNat + (s.reg b).toNat) % 256 ∧
      (t.reg a).toInt = ((s.reg a).toInt + (s.reg b).toInt).bmod 256 ∧
      (s.reg b = 0 → t.reg a = s.reg a) ∧
      SameRegsExcept [a] s t ∧ t.pc.toNat = s.pc.toNat + 3 ∧
      t.flagE = s.flagE ∧ SameMemory s t ∧ t.out = s.out ∧ SameControl s t ∧
      ∃ u, exec (.add (regByte b) (regByte a)) s = .next u ∧ u.reg b = t.reg a ∧ SameRegsExcept [b] s u

/-- MUL and the arithmetic law R132: the low 8 bits of the product, whichever operand order, read signed or
unsigned; no overflow faults and nothing else records it. -/
def Obligations.MulWritesTheProductModulo256 : Prop :=
  ∀ (a b : RegIx) (s : State), s.pc.toNat ≤ 252 →
    ∃ t, exec (.mul (regByte a) (regByte b)) s = .next t ∧
      (t.reg a).toNat = ((s.reg a).toNat * (s.reg b).toNat) % 256 ∧
      (t.reg a).toInt = ((s.reg a).toInt * (s.reg b).toInt).bmod 256 ∧
      (s.reg b = 0 → t.reg a = 0) ∧ (s.reg b = 1 → t.reg a = s.reg a) ∧
      SameRegsExcept [a] s t ∧ t.pc.toNat = s.pc.toNat + 3 ∧
      t.flagE = s.flagE ∧ SameMemory s t ∧ t.out = s.out ∧ SameControl s t ∧
      ∃ u, exec (.mul (regByte b) (regByte a)) s = .next u ∧ u.reg b = t.reg a ∧ SameRegsExcept [b] s u

/-- CMP (42_alu.md R135, its pseudocode where no check fails): E set exactly when the two registers hold the same
value, cleared otherwise. -/
def Obligations.CmpSetsTheFlagExactlyOnEquality : Prop :=
  ∀ (a b : RegIx) (s : State), s.pc.toNat ≤ 252 →
    ∃ t, exec (.cmp (regByte a) (regByte b)) s = .next t ∧
      (t.flagE = true ↔ s.reg a = s.reg b) ∧ SameRegsExcept [] s t ∧ t.pc.toNat = s.pc.toNat + 3 ∧
      SameMemory s t ∧ t.out = s.out ∧ SameControl s t

/-! ### The stack -/

/-- POP (43_stack.md R142, its pseudocode where no check fails). With operand 7 the popped byte is what is
incremented: the spec's inference, decision D30 (log 12). -/
def Obligations.PopLoadsTheTopAndIncrementsSp : Prop :=
  ∀ (r : RegIx) (s : State), s.pc.toNat ≤ 253 →
    (if r = 7 then s.load (s.reg 7) else s.reg 7).toNat ≤ 254 →
    ∃ t, exec (.pop (regByte r)) s = .next t ∧
      (t.reg 7).toNat = (if r = 7 then s.load (s.reg 7) else s.reg 7).toNat + 1 ∧
      (r ≠ 7 → t.reg r = s.load (s.reg 7)) ∧ SameRegsExcept [r, 7] s t ∧ t.pc.toNat = s.pc.toNat + 2 ∧
      t.flagE = s.flagE ∧ SameMemory s t ∧ t.out = s.out ∧ SameControl s t

/-- PUSH (43_stack.md R143, its pseudocode where no check fails). The one cell stored to is `pushSlot`, the
decremented stack pointer. With operand 7 the byte stored is the decremented pointer: the spec's inference,
decision D30 (log 12). -/
def Obligations.PushDecrementsSpAndStores : Prop :=
  ∀ (r : RegIx) (s : State), s.pc.toNat ≤ 253 → 1 ≤ (s.reg 7).toNat →
    ∃ t slot, exec (.push (regByte r)) s = .next t ∧ pushSlot s = .ok slot ∧
      slot.toNat + 1 = (s.reg 7).toNat ∧ t.reg 7 = slot ∧ SameRegsExcept [7] s t ∧
      t.load slot = (if r = 7 then slot else s.reg r) ∧ (∀ b, b ≠ slot → t.load b = s.load b) ∧
      t.pc.toNat = s.pc.toNat + 2 ∧ t.flagE = s.flagE ∧ t.out = s.out ∧ SameControl s t

/-! ### Control transfer -/

/-- CALL (44_control_transfer.md R151, its pseudocode where no check fails). The one cell stored to is `pushSlot`.
With operand 7 the target is the decremented stack pointer: the spec's inference, decision D30 (log 12). -/
def Obligations.CallPushesTheReturnAddressAndJumps : Prop :=
  ∀ (r : RegIx) (s : State), s.pc.toNat ≤ 253 → 1 ≤ (s.reg 7).toNat →
    ∃ t slot, exec (.call (regByte r)) s = .next t ∧ pushSlot s = .ok slot ∧
      slot.toNat + 1 = (s.reg 7).toNat ∧ t.reg 7 = slot ∧ SameRegsExcept [7] s t ∧
      (t.load slot).toNat = s.pc.toNat + 2 ∧ (∀ b, b ≠ slot → t.load b = s.load b) ∧
      t.pc = (if r = 7 then slot else s.reg r) ∧ t.flagE = s.flagE ∧ t.out = s.out ∧ SameControl s t

/-- RET (44_control_transfer.md R152, its pseudocode where no check fails): at any PC. -/
def Obligations.RetPopsThePc : Prop :=
  ∀ s : State, (s.reg 7).toNat ≤ 254 →
    ∃ t, exec .ret s = .next t ∧ t.pc = s.load (s.reg 7) ∧ (t.reg 7).toNat = (s.reg 7).toNat + 1 ∧
      SameRegsExcept [7] s t ∧ t.flagE = s.flagE ∧ SameMemory s t ∧ t.out = s.out ∧ SameControl s t

/-- JMP (44_control_transfer.md R153, its pseudocode where no check fails): every register value is a target, and
it executes at 254 too. -/
def Obligations.JmpGoesToTheRegister : Prop :=
  ∀ (r : RegIx) (s : State), s.pc.toNat ≤ 254 →
    ∃ t, exec (.jmp (regByte r)) s = .next t ∧ t.pc = s.reg r ∧
      SameRegsExcept [] s t ∧ t.flagE = s.flagE ∧ SameMemory s t ∧ t.out = s.out ∧ SameControl s t

/-- JEQ (44_control_transfer.md R154, its pseudocode where no check fails): it jumps iff E is set, and otherwise
advances by 2; E keeps its value. -/
def Obligations.JeqJumpsExactlyWhenEIsSet : Prop :=
  ∀ (r : RegIx) (s : State), s.pc.toNat ≤ (if s.flagE then 254 else 253) →
    ∃ t, exec (.jeq (regByte r)) s = .next t ∧
      (s.flagE = true → t.pc = s.reg r) ∧ (s.flagE = false → t.pc.toNat = s.pc.toNat + 2) ∧
      SameRegsExcept [] s t ∧ t.flagE = s.flagE ∧ SameMemory s t ∧ t.out = s.out ∧ SameControl s t

/-- JNE (44_control_transfer.md R155, its pseudocode where no check fails): the complement of JEQ. -/
def Obligations.JneJumpsExactlyWhenEIsClear : Prop :=
  ∀ (r : RegIx) (s : State), s.pc.toNat ≤ (if s.flagE then 253 else 254) →
    ∃ t, exec (.jne (regByte r)) s = .next t ∧
      (s.flagE = false → t.pc = s.reg r) ∧ (s.flagE = true → t.pc.toNat = s.pc.toNat + 2) ∧
      SameRegsExcept [] s t ∧ t.flagE = s.flagE ∧ SameMemory s t ∧ t.out = s.out ∧ SameControl s t

/-! ### Faults -/

/-- `raise` (60_exceptions.md R160, R162, R166, R167): FAULTED, the code, the information, and nothing else. The codes
and the FAULTED status are the spec's decisions D6, D11, D31 (log 7). -/
def Obligations.RaiseWritesOnlyTheFaultState : Prop :=
  (∀ (f : Trap) (s : State), (raise f s).status = .faulted ∧ (raise f s).cause = f.cause ∧
    (raise f s).info = f.info ∧ SameArchitecture s (raise f s) ∧
    (raise f s).ir = s.ir ∧ (raise f s).opa = s.opa ∧ (raise f s).opb = s.opb) ∧
  (∀ b, (Trap.illegalOpcode b).cause.code = 1 ∧ (Trap.illegalOpcode b).info = b ∧
    (Trap.registerIndexOutOfRange b).cause.code = 4 ∧ (Trap.registerIndexOutOfRange b).info = b) ∧
  (∀ k, (Trap.outOfBounds k).cause.code = 2 ∧ (Trap.outOfBounds k).info =
    match k with
    | .operand => 1 | .spUnderflow => 2 | .spOverflow => 3 | .returnAddress => 4 | .nextPc => 5) ∧
  Trap.unsupportedALUOperation.cause.code = 3 ∧ Trap.unsupportedALUOperation.info = 0 ∧
  Cause.none.code = 0

/-- Table R178, itself the spec's own derivation, with the priority of R165 (decision D15, log 20): each instruction,
every operand byte included, raises exactly the first fault of its row, and where no condition of the row holds
it completes without a fault. Rests on decisions D7 (log 7), D8 and D22 (log 9), D9 and D10 (log 10), D11 (log 11) and, for
the row of POP with operand 7, where the byte read is what is incremented, on the spec's inference D30 (log 12). -/
def Obligations.FaultsExactlyAsTabulated : Prop :=
  ∀ (i : Instr) (s : State),
    (∀ f, faultTable i s = some f → exec i s = .next (raise f s)) ∧
    (faultTable i s = none → ∃ t, exec i s = .next t ∧ t.cause = s.cause ∧ t.info = s.info ∧
      t.status = (if i = .hlt then .halted else s.status))

/-- The five cases of R165 in which two conditions hold at once: the spec's own derivation from decision D15
(log 20). -/
def Obligations.FirstFailingCheckIsReported : Prop :=
  (∀ s : State, s.pc = 254 → s.reg 7 = 0 →
    exec (.push 9) s = .next (raise (.registerIndexOutOfRange 9) s) ∧
    exec (.push 0) s = .next (raise (.outOfBounds .spUnderflow) s) ∧
    exec (.call 0) s = .next (raise (.outOfBounds .returnAddress) s)) ∧
  (∀ s : State, s.pc.toNat ≤ 253 → exec (.mul 8 9) s = .next (raise (.registerIndexOutOfRange 8) s)) ∧
  (∀ s : State, s.status = .running → s.pc = 254 → s.load 254 = 0x82 → s.load 255 = 200 →
    step s = .next (raise (.outOfBounds .operand) (loadLatches s)))

/-- R161 with R85: a byte that is none of the 13 opcodes, fetched as an opcode, raises IllegalOpcode before any
operand is read; the PC still holds its address. The recording is the spec's decision D6 (log 7); that the operand
latches keep what they held is the model's reading (log 5). -/
def Obligations.IllegalOpcodeIsRaisedForEveryOtherByte : Prop :=
  ∀ s : State, s.status = .running →
    s.load s.pc ∉ ([0x82, 0x47, 0x01, 0xA2, 0xA0, 0xA7, 0x46, 0x45, 0x50, 0x11, 0x54, 0x55, 0x56] : List Byte) →
    ∃ t, step s = .next t ∧ t.status = .faulted ∧ t.cause = .illegalOpcode ∧ t.info = s.load s.pc ∧
      t.ir = s.load s.pc ∧ t.opa = s.opa ∧ t.opb = s.opb ∧ SameArchitecture s t

/-- R104 with R89: an instruction whose operand bytes would lie beyond address 255 raises OutOfBounds(OPERAND); the
address does not wrap. The spec's decision D22 (log 9). -/
def Obligations.OperandBeyondMemoryIsRaised : Prop :=
  ∀ (s : State) (o : Opcode), s.status = .running → dispatch (s.load s.pc) = some o →
    255 < s.pc.toNat + o.operands →
    ∃ t, step s = .next t ∧ t.status = .faulted ∧ t.cause = .outOfBounds ∧ t.info = 1 ∧
      t.ir = s.load s.pc ∧ SameArchitecture s t

/-! ### Encoding -/

/-- Decode and encode agree, both ways, on every instruction with every operand byte and whatever bytes follow:
no bit of an encoding is dropped and no other bytes give the instruction (30_encoding.md R80, R83, R91). -/
def Obligations.DecodeIsTheInverseOfEncode : Prop :=
  ∀ (bs : List Byte) (i : Instr) (rest : List Byte), decode bs = .ok (i, rest) ↔ bs = encode i ++ rest

/-- R81 with the opcode column of R83: all 8 bits of the byte are compared with each of the 13 values, and either
exactly one matches or none does. -/
def Obligations.OpcodeByteIsMatchedWhole : Prop :=
  ∀ (b : Byte) (o : Opcode), dispatch b = some o ↔ b =
    match o with
    | .ldi => 0b10000010 | .prn => 0b01000111 | .hlt => 0b00000001 | .mul => 0b10100010 | .add => 0b10100000
    | .cmp => 0b10100111 | .pop => 0b01000110 | .push => 0b01000101 | .call => 0b01010000 | .ret => 0b00010001
    | .jmp => 0b01010100 | .jeq => 0b01010101 | .jne => 0b01010110

/-- Words written out from R83 and R91, one of every format and family (sanity). -/
def Obligations.KnownWordsDecode : Prop :=
  decode [0x82, 0x00, 0x08] = .ok (.ldi 0 8, []) ∧ decode [0xA2, 0x00, 0x01] = .ok (.mul 0 1, []) ∧
  decode [0x47, 0x00] = .ok (.prn 0, []) ∧ decode [0x01] = .ok (.hlt, []) ∧
  decode [0x45, 0x07, 0x11] = .ok (.push 7, [0x11]) ∧ decode [0x56, 0x03] = .ok (.jne 3, []) ∧
  decode [0xA1, 0x00, 0x01] = .error (.illegalOpcode 0xA1) ∧ decode [0xA0, 0x00] = .error .truncated

/-! ### The step -/

/-- A step runs the instruction whose bytes lie at the PC: phases F, D and O load the latches and change nothing
else, then the instruction's meaning runs (40_fetch_decode_execute.md R100 to R106). What a latch holds that the
instruction does not load is the model's reading of R100 (log 5). -/
def Obligations.StepRunsTheInstructionAtPc : Prop :=
  ∀ (s : State) (i : Instr), s.status = .running → s.bytesAtPc i →
    step s = exec i (loadLatches s) ∧
    (loadLatches s).ir = i.opcodeByte ∧
    (loadLatches s).opa = i.operandBytes.getD 0 s.opa ∧ (loadLatches s).opb = i.operandBytes.getD 1 s.opb ∧
    SameArchitecture s (loadLatches s) ∧ (loadLatches s).status = s.status ∧
    (loadLatches s).cause = s.cause ∧ (loadLatches s).info = s.info

/-- R194: a RUNNING core always has a next step. -/
def Obligations.RunningCoreAlwaysSteps : Prop :=
  ∀ s : State, s.status = .running → ∃ t, step s = .next t

/-- R100 and R28: no step exists in HALTED or FAULTED. That the model answers a named stop is its own form (log 6). -/
def Obligations.StoppedCoreHasNoStep : Prop :=
  ∀ s : State, (s.status = .halted → step s = .fault .halted) ∧ (s.status = .faulted → step s = .fault .faulted)

/-- R38 and R28: a step ends in HALTED exactly when the byte at the PC is HLT. -/
def Obligations.OnlyHltHalts : Prop :=
  ∀ s t : State, step s = .next t → (t.status = .halted ↔ s.load s.pc = 0x01)

/-- R108 and R166: a step is all or nothing: one that ends FAULTED changes no register, no cell, not E, not the PC
and not the output. The spec's decision D7 (log 7). -/
def Obligations.FaultingStepHasNoOtherEffect : Prop :=
  ∀ s t : State, step s = .next t → t.status = .faulted → SameArchitecture s t ∧ t.ir = s.load s.pc

/-- The invariant of R38, R29 and R160 is kept by every step from every state that meets it: memory canonical and
within 256 cells, `cause` not NONE exactly when FAULTED, `info` as `cause` says, UnsupportedALUOperation never. What `cause`
and `info` hold is the spec's decisions D6, D11, D31 (log 7), that the one cause is never raised D26 (log 21), and the
canonical form is the model's own (log 3). -/
def Obligations.StepKeepsTheInvariant : Prop :=
  ∀ s t : State, s.Inv → step s = .next t → t.Inv

/-- The invariant holds right after reset: of RUNNING, NONE and info 0, which are the spec's decisions D28 and D6 (log 7),
and of the empty memory list, the model's own form (log 3). -/
def Obligations.ResetMeetsTheInvariant : Prop := State.reset.Inv

/-- R37, R180: what reset leaves. The stack pointer is the source's; the other values are the spec's decisions D1
to D6 (logs 1 to 5, 7). -/
def Obligations.ResetLeavesTheListedValues : Prop :=
  ∀ s : State, assertReset s = State.reset ∧ State.reset.reg 7 = 0xF4 ∧
    (∀ r : RegIx, r ≠ 7 → State.reset.reg r = 0) ∧ State.reset.pc = 0 ∧ State.reset.flagE = false ∧
    State.reset.status = .running ∧ State.reset.cause = .none ∧ State.reset.info = 0 ∧
    State.reset.ir = 0 ∧ State.reset.opa = 0 ∧ State.reset.opb = 0 ∧
    (∀ a : Byte, State.reset.load a = 0) ∧ State.reset.out = []

/-! ### Whole-machine rules -/

/-- R22, its two columns: an instruction changes no register but those it writes, and what it does depends on no
register but those it reads. With another value in a register it does not read the outcome is the same, and that
register keeps the other value unless the instruction completes and writes it. That a faulting instruction writes no
register is the spec's decision D7 (log 7). -/
def Obligations.RegisterUseIsAsTabulated : Prop :=
  ∀ (i : Instr) (s t : State), exec i s = .next t →
    (∀ r : RegIx, r.val ∉ registersWritten i → t.reg r = s.reg r) ∧
    (s.status = .running → ∀ (r : RegIx) (v : Byte), r.val ∉ registersRead i s →
      exec i (s.setReg r v) =
        .next (if t.status = .faulted ∨ r.val ∉ registersWritten i then t.setReg r v else t))

/-- R26: E is written by CMP and by no other instruction, and read by JEQ and JNE and by no other. That a faulting
instruction leaves E is the spec's decision D7 (log 7). -/
def Obligations.FlagUseIsAsStated : Prop :=
  ∀ (i : Instr) (s t : State), exec i s = .next t →
    ((∀ a b, i ≠ .cmp a b) → t.flagE = s.flagE) ∧
    ((∀ a, i ≠ .jeq a ∧ i ≠ .jne a) → ∀ c,
      exec i (s.setFlag c) = .next t ∨ exec i (s.setFlag c) = .next (t.setFlag c))

/-- R32, R62: PUSH and CALL are the only instructions that write memory, and they write the one cell `pushSlot`. That at
SP 0, where `pushSlot` fails, they fault before any write is R141 and R108, decisions D9 (log 10) and D7 (log 7). -/
def Obligations.OnlyPushAndCallStore : Prop :=
  ∀ (i : Instr) (s t : State), exec i s = .next t →
    ((∀ a, i ≠ .push a ∧ i ≠ .call a) → SameMemory s t) ∧
    (∀ slot, pushSlot s = .ok slot → ∀ b, b ≠ slot → t.load b = s.load b) ∧
    (∀ f, pushSlot s = .error f → SameMemory s t)

/-- R34: only PRN emits, it appends the value of its register, and the core never reads the stream back: with another
stream before, the step is the same with that stream before what it appends. That a faulting step emits nothing is the spec's
decision D7 (log 7). -/
def Obligations.OnlyPrnEmitsAndNothingReadsTheStream : Prop :=
  ∀ s t : State, step s = .next t → ∃ new : List Byte,
    t.out = s.out ++ new ∧
    (new = [] ∨ ∃ r : RegIx, s.load s.pc = 0x47 ∧ s.load (s.pc + 1) = regByte r ∧ new = [s.reg r]) ∧
    ∀ o, step { s with out := o } = .next { t with out := o ++ new }

/-- R144: (a) PUSH then POP copies the register, restores SP and leaves the byte in its cell; (b) last in, first out;
(c) a popped value stays in memory until a later push overwrites it. -/
def Obligations.StackIsLastInFirstOut : Prop :=
  (∀ (s : State) (a r : RegIx), a ≠ 7 → r ≠ 7 → 1 ≤ (s.reg 7).toNat → s.pc.toNat + 4 ≤ 255 →
    ∃ t u slot, exec (.push (regByte a)) s = .next t ∧ exec (.pop (regByte r)) t = .next u ∧
      u.reg r = s.reg a ∧ u.reg 7 = s.reg 7 ∧ pushSlot s = .ok slot ∧ u.load slot = s.reg a) ∧
  (∀ (s : State) (a b c d : RegIx), a ≠ 7 → b ≠ 7 → c ≠ 7 → d ≠ 7 → c ≠ d → 2 ≤ (s.reg 7).toNat →
    s.pc.toNat + 8 ≤ 255 →
    ∃ t u v w, exec (.push (regByte a)) s = .next t ∧ exec (.push (regByte b)) t = .next u ∧
      exec (.pop (regByte c)) u = .next v ∧ exec (.pop (regByte d)) v = .next w ∧
      w.reg c = s.reg b ∧ w.reg d = s.reg a ∧ w.reg 7 = s.reg 7) ∧
  (∀ (i : Instr) (s t : State) (b : Byte), exec i s = .next t → t.load b ≠ s.load b →
    (∃ a, i = .push a ∨ i = .call a) ∧ pushSlot s = .ok b)

/-- R157: a RET in a state where SP and the cell it names are as a CALL left them returns to the instruction after
the CALL, with SP as it was before it. -/
def Obligations.CallThenRetReturns : Prop :=
  ∀ (s : State) (r : RegIx), s.pc.toNat ≤ 253 → 1 ≤ (s.reg 7).toNat →
    ∃ t, exec (.call (regByte r)) s = .next t ∧
      ∀ u : State, u.reg 7 = t.reg 7 → u.load (u.reg 7) = t.load (t.reg 7) →
        ∃ w, exec .ret u = .next w ∧ w.pc.toNat = s.pc.toNat + 2 ∧ w.reg 7 = s.reg 7

/-- R62, R192: a byte a PUSH stores is what the very next step fetches, where the PC reaches it. The rule is the
spec's own derivation; the form with operand 7 is decision D30 (log 12). -/
def Obligations.PushedByteIsFetchedByTheNextStep : Prop :=
  ∀ (s : State) (r : RegIx) (slot : Byte), s.status = .running → pushSlot s = .ok slot →
    slot.toNat = s.pc.toNat + 2 →
    ∃ t u, exec (.push (regByte r)) s = .next t ∧ step t = .next u ∧
      u.ir = (if r = 7 then slot else s.reg r)

/-- R21: what LDI, ADD, MUL and POP write to register 7 is the stack pointer of every stack instruction after them, and
where PUSH, CALL, POP and RET move the stack pointer register 7 holds it and the next stack instruction uses it. POP of
register 7 is decision D30 (log 12). -/
def Obligations.StackPointerIsRegisterSeven : Prop :=
  ∀ s : State,
    (s.pc.toNat ≤ 252 → ∀ v, ∃ t, exec (.ldi 7 v) s = .next t ∧ StackPointerIs v t) ∧
    (s.pc.toNat ≤ 252 → ∀ b : RegIx,
      ∃ t, exec (.add 7 (regByte b)) s = .next t ∧ StackPointerIs (s.reg 7 + s.reg b) t) ∧
    (s.pc.toNat ≤ 252 → ∀ b : RegIx,
      ∃ t, exec (.mul 7 (regByte b)) s = .next t ∧ StackPointerIs (s.reg 7 * s.reg b) t) ∧
    (s.pc.toNat ≤ 253 → (s.load (s.reg 7)).toNat ≤ 254 →
      ∃ t, exec (.pop 7) s = .next t ∧ StackPointerIs (s.load (s.reg 7) + 1) t) ∧
    (s.pc.toNat ≤ 253 → (s.reg 7).toNat ≤ 254 → ∀ r : RegIx, r ≠ 7 →
      ∃ t, exec (.pop (regByte r)) s = .next t ∧ StackPointerIs (s.reg 7 + 1) t) ∧
    ((s.reg 7).toNat ≤ 254 → ∃ t, exec .ret s = .next t ∧ StackPointerIs (s.reg 7 + 1) t) ∧
    (s.pc.toNat ≤ 253 → 1 ≤ (s.reg 7).toNat → ∀ r : RegIx,
      (∃ t, exec (.push (regByte r)) s = .next t ∧ StackPointerIs (s.reg 7 - 1) t) ∧
      ∃ t, exec (.call (regByte r)) s = .next t ∧ StackPointerIs (s.reg 7 - 1) t)

/-- Equal memories are equal data: the canonical form of the model (its own, log 3). -/
def Obligations.EqualMemoriesAreEqualData : Prop :=
  ∀ m m' : Memory, m.wf → m'.wf → (∀ a, m.read a = m'.read a) → m = m'

/-! ### The host's side -/

/-- R182, R185 (a): the loader writes byte k of the image to cell k and nothing else; more than 256 bytes are refused.
The refusal is the spec's decision D19 (log 16). -/
def Obligations.LoaderWritesTheImageFromAddressZero : Prop :=
  ∀ (program : List Byte) (s : State),
    (256 < program.length → loadProgram program s = .error .outOfBounds) ∧
    (program.length ≤ 256 → ∃ t, loadProgram program s = .ok t ∧
      (∀ a : Byte, t.load a = program.getD a.toNat (s.load a)) ∧ SameRegsExcept [] s t ∧ t.pc = s.pc ∧
      t.flagE = s.flagE ∧ t.out = s.out ∧ SameControl s t)

/-- R183: a text each line of which is white space, an 8-digit literal (leftmost digit bit 7) or nothing, white space,
and a comment or nothing, is the bytes of its literals in order; the other lines consume no address. So of the lines, and
so of the file whose lines they are, which the host then launches. What is white space and where a file is cut into lines
are the model's (log 16). -/
def Obligations.ProgramTextGivesItsBytes : Prop :=
  ∀ lines : List TextLine, (∀ l ∈ lines, l.wf) →
    programOfLines (lines.map TextLine.chars) = .ok (lines.filterMap TextLine.value) ∧
    ((∀ l ∈ lines, '\n' ∉ l.chars) →
      launchFile (some (List.intercalate ['\n'] (lines.map TextLine.chars))) =
        launch (lines.filterMap TextLine.value))

/-- R190: each value is shown as the decimal numeral of 0 to 255, never empty, digits only, no leading zero. The form is the
spec's decision D17. -/
def Obligations.OutputIsRenderedInDecimal : Prop :=
  ∀ v : Byte, renderValue v ≠ [] ∧ (renderValue v).all Char.isDigit ∧
    (renderValue v).foldl (fun n c => 10 * n + (c.toNat - 48)) 0 = v.toNat ∧
    (1 < (renderValue v).length → (renderValue v).head? ≠ some '0')

/-- R191: the exit codes. Those of the core's faults are the spec's decision D18 (log 17). -/
def Obligations.ExitCodesAreAsTabulated : Prop :=
  (∀ s : State, (s.status = .running → exitCode s = none) ∧ (s.status = .halted → exitCode s = some 0) ∧
    (s.status = .faulted →
      (s.cause = .illegalOpcode → exitCode s = some 3) ∧ (s.cause = .outOfBounds → exitCode s = some 4) ∧
      (s.cause = .unsupportedALUOperation → exitCode s = some 5) ∧
      (s.cause = .registerIndexOutOfRange → exitCode s = some 6))) ∧
  LoadError.programNotFound.exitCode = some 2 ∧ LoadError.outOfBounds.exitCode = some 4

/-! ### A run -/

/-- R109: a run is the sequence of steps for as long as the core is RUNNING. What stands after its end is the model's
form (log 26). -/
def Obligations.RunIsTheSequenceOfSteps : Prop :=
  ∀ (s : State) (n : Nat), stateAfter 0 s = s ∧
    ((stateAfter n s).status = .running → step (stateAfter n s) = .next (stateAfter (n + 1) s)) ∧
    ((stateAfter n s).status ≠ .running → ∀ m, n ≤ m → stateAfter m s = stateAfter n s)

/-- R109, R187: a run from a RUNNING state ends once at most, and in one of two ways: its last step executes the HLT at the
PC and the core is HALTED, or its last step raises a fault and the core is FAULTED. That the HLT leaves the PC is decision
D14 (log 18), that the fault leaves everything else D7 (log 7). The fault is one the core can raise: IllegalOpcode only for a
byte of no row (R161), RegisterIndexOutOfRange only for a byte above 7 (R163, decision D11, log 11), and
UnsupportedALUOperation never (R164, decision D26, log 21). -/
def Obligations.RunEndsByHltOrByFault : Prop :=
  ∀ (s : State) (n : Nat), s.status = .running → EndsAfter s n →
    (∀ m, EndsAfter s m → m = n) ∧
    ∃ k, n = k + 1 ∧
      (((stateAfter n s).status = .halted ∧ (stateAfter k s).load (stateAfter k s).pc = 0x01 ∧
          stateAfter n s = (loadLatches (stateAfter k s)).halt) ∨
        ((stateAfter n s).status = .faulted ∧
          ∃ f : Trap, f.raisable ∧ stateAfter n s = raise f (loadLatches (stateAfter k s))))

/-- R109: the executor reports HALTED or FAULTED exactly where the run ends so within the budget, with the run's last
state, and an exhausted budget, which is neither, exactly where the core is RUNNING at every step of it. A larger budget
changes no reported end. That a budget just enough for the last step reports the end, and that a run stands still after it,
so that a larger budget changes nothing, are the model's choices (log 26). -/
def Obligations.ExhaustedBudgetIsNeitherEnd : Prop :=
  ∀ (s u : State) (budget : Nat),
    (runFor budget s = .exhausted u ↔
      u = stateAfter budget s ∧ ∀ k, k ≤ budget → (stateAfter k s).status = .running) ∧
    (runFor budget s = .halted u ↔
      ∃ n, n ≤ budget ∧ EndsAfter s n ∧ u = stateAfter n s ∧ u.status = .halted) ∧
    (runFor budget s = .faulted u ↔
      ∃ n, n ≤ budget ∧ EndsAfter s n ∧ u = stateAfter n s ∧ u.status = .faulted) ∧
    (runFor budget s ≠ .exhausted (stateAfter budget s) → ∀ more, runFor (budget + more) s = runFor budget s)

/-- R109: a JMP to itself runs forever: whatever the budget, it is exhausted, and nothing has changed but the latches. -/
def Obligations.JumpToItselfNeverEnds : Prop :=
  ∀ (s : State) (r : RegIx), s.status = .running → s.bytesAtPc (.jmp (regByte r)) → s.reg r = s.pc →
    ∀ budget, ∃ u, runFor budget s = .exhausted u ∧ SameArchitecture s u

/-- R109, R181: the run of an image is the executor's from the reset state with the image in memory, and an image of more
than 256 bytes has none. The refusal is the spec's decision D19 (log 16), the reset values those of logs 1 to 5 and 7. -/
def Obligations.ProgramRunsFromTheLaunchState : Prop :=
  ∀ (budget : Nat) (program : List Byte),
    (256 < program.length → runProgram budget program = .error .outOfBounds) ∧
    (program.length ≤ 256 → ∃ s, runProgram budget program = .ok (runFor budget s) ∧
      (∀ a : Byte, s.load a = program.getD a.toNat 0) ∧ s = { State.reset with mem := s.mem })
end

