-- ==== Sys2Proof/Laws/State.lean ====
section
/-! SUPPORT. One lemma per field per update of State, true by rfl, and what a register or memory read gives
after each update. -/

namespace Sys2Proof.Machine

section
variable (s : State) (i : RegIx) (v : Byte)

theorem State.setReg_regs : (s.setReg i v).regs = s.regs.set i.val v i.isLt := rfl
@[simp] theorem State.setReg_pc : (s.setReg i v).pc = s.pc := rfl
@[simp] theorem State.setReg_flagE : (s.setReg i v).flagE = s.flagE := rfl
@[simp] theorem State.setReg_ir : (s.setReg i v).ir = s.ir := rfl
@[simp] theorem State.setReg_opa : (s.setReg i v).opa = s.opa := rfl
@[simp] theorem State.setReg_opb : (s.setReg i v).opb = s.opb := rfl
@[simp] theorem State.setReg_status : (s.setReg i v).status = s.status := rfl
@[simp] theorem State.setReg_cause : (s.setReg i v).cause = s.cause := rfl
@[simp] theorem State.setReg_info : (s.setReg i v).info = s.info := rfl
@[simp] theorem State.setReg_mem : (s.setReg i v).mem = s.mem := rfl
@[simp] theorem State.setReg_out : (s.setReg i v).out = s.out := rfl
@[simp] theorem State.setReg_load (b : Byte) : (s.setReg i v).load b = s.load b := rfl
end

section
variable (s : State) (v : Byte)

theorem State.setSp_regs : (s.setSp v).regs = (s.setReg Config.spIndex v).regs := rfl
@[simp] theorem State.setSp_pc : (s.setSp v).pc = s.pc := rfl
@[simp] theorem State.setSp_flagE : (s.setSp v).flagE = s.flagE := rfl
@[simp] theorem State.setSp_ir : (s.setSp v).ir = s.ir := rfl
@[simp] theorem State.setSp_opa : (s.setSp v).opa = s.opa := rfl
@[simp] theorem State.setSp_opb : (s.setSp v).opb = s.opb := rfl
@[simp] theorem State.setSp_status : (s.setSp v).status = s.status := rfl
@[simp] theorem State.setSp_cause : (s.setSp v).cause = s.cause := rfl
@[simp] theorem State.setSp_info : (s.setSp v).info = s.info := rfl
@[simp] theorem State.setSp_mem : (s.setSp v).mem = s.mem := rfl
@[simp] theorem State.setSp_out : (s.setSp v).out = s.out := rfl
@[simp] theorem State.setSp_load (b : Byte) : (s.setSp v).load b = s.load b := rfl
end

section
variable (s : State) (t : Byte)

@[simp] theorem State.setPc_regs : (s.setPc t).regs = s.regs := rfl
@[simp] theorem State.setPc_pc : (s.setPc t).pc = t := rfl
@[simp] theorem State.setPc_flagE : (s.setPc t).flagE = s.flagE := rfl
@[simp] theorem State.setPc_ir : (s.setPc t).ir = s.ir := rfl
@[simp] theorem State.setPc_opa : (s.setPc t).opa = s.opa := rfl
@[simp] theorem State.setPc_opb : (s.setPc t).opb = s.opb := rfl
@[simp] theorem State.setPc_status : (s.setPc t).status = s.status := rfl
@[simp] theorem State.setPc_cause : (s.setPc t).cause = s.cause := rfl
@[simp] theorem State.setPc_info : (s.setPc t).info = s.info := rfl
@[simp] theorem State.setPc_mem : (s.setPc t).mem = s.mem := rfl
@[simp] theorem State.setPc_out : (s.setPc t).out = s.out := rfl
@[simp] theorem State.setPc_reg (r : RegIx) : (s.setPc t).reg r = s.reg r := rfl
@[simp] theorem State.setPc_sp : (s.setPc t).sp = s.sp := rfl
@[simp] theorem State.setPc_load (b : Byte) : (s.setPc t).load b = s.load b := rfl
end

section
variable (s : State) (b : Bool)

@[simp] theorem State.setFlag_regs : (s.setFlag b).regs = s.regs := rfl
@[simp] theorem State.setFlag_pc : (s.setFlag b).pc = s.pc := rfl
@[simp] theorem State.setFlag_flagE : (s.setFlag b).flagE = b := rfl
@[simp] theorem State.setFlag_ir : (s.setFlag b).ir = s.ir := rfl
@[simp] theorem State.setFlag_opa : (s.setFlag b).opa = s.opa := rfl
@[simp] theorem State.setFlag_opb : (s.setFlag b).opb = s.opb := rfl
@[simp] theorem State.setFlag_status : (s.setFlag b).status = s.status := rfl
@[simp] theorem State.setFlag_cause : (s.setFlag b).cause = s.cause := rfl
@[simp] theorem State.setFlag_info : (s.setFlag b).info = s.info := rfl
@[simp] theorem State.setFlag_mem : (s.setFlag b).mem = s.mem := rfl
@[simp] theorem State.setFlag_out : (s.setFlag b).out = s.out := rfl
@[simp] theorem State.setFlag_reg (r : RegIx) : (s.setFlag b).reg r = s.reg r := rfl
@[simp] theorem State.setFlag_sp : (s.setFlag b).sp = s.sp := rfl
@[simp] theorem State.setFlag_load (a : Byte) : (s.setFlag b).load a = s.load a := rfl
end

section
variable (s : State)

@[simp] theorem State.halt_regs : (s.halt).regs = s.regs := rfl
@[simp] theorem State.halt_pc : (s.halt).pc = s.pc := rfl
@[simp] theorem State.halt_flagE : (s.halt).flagE = s.flagE := rfl
@[simp] theorem State.halt_ir : (s.halt).ir = s.ir := rfl
@[simp] theorem State.halt_opa : (s.halt).opa = s.opa := rfl
@[simp] theorem State.halt_opb : (s.halt).opb = s.opb := rfl
@[simp] theorem State.halt_status : (s.halt).status = .halted := rfl
@[simp] theorem State.halt_cause : (s.halt).cause = s.cause := rfl
@[simp] theorem State.halt_info : (s.halt).info = s.info := rfl
@[simp] theorem State.halt_mem : (s.halt).mem = s.mem := rfl
@[simp] theorem State.halt_out : (s.halt).out = s.out := rfl
@[simp] theorem State.halt_reg (r : RegIx) : (s.halt).reg r = s.reg r := rfl
@[simp] theorem State.halt_sp : (s.halt).sp = s.sp := rfl
@[simp] theorem State.halt_load (b : Byte) : (s.halt).load b = s.load b := rfl
end

section
variable (s : State) (v : Byte)

@[simp] theorem State.emit_regs : (s.emit v).regs = s.regs := rfl
@[simp] theorem State.emit_pc : (s.emit v).pc = s.pc := rfl
@[simp] theorem State.emit_flagE : (s.emit v).flagE = s.flagE := rfl
@[simp] theorem State.emit_ir : (s.emit v).ir = s.ir := rfl
@[simp] theorem State.emit_opa : (s.emit v).opa = s.opa := rfl
@[simp] theorem State.emit_opb : (s.emit v).opb = s.opb := rfl
@[simp] theorem State.emit_status : (s.emit v).status = s.status := rfl
@[simp] theorem State.emit_cause : (s.emit v).cause = s.cause := rfl
@[simp] theorem State.emit_info : (s.emit v).info = s.info := rfl
@[simp] theorem State.emit_mem : (s.emit v).mem = s.mem := rfl
@[simp] theorem State.emit_out : (s.emit v).out = s.out ++ [v] := rfl
@[simp] theorem State.emit_reg (r : RegIx) : (s.emit v).reg r = s.reg r := rfl
@[simp] theorem State.emit_sp : (s.emit v).sp = s.sp := rfl
@[simp] theorem State.emit_load (b : Byte) : (s.emit v).load b = s.load b := rfl
end

section
variable (s : State) (a v : Byte)

@[simp] theorem State.store_regs : (s.store a v).regs = s.regs := rfl
@[simp] theorem State.store_pc : (s.store a v).pc = s.pc := rfl
@[simp] theorem State.store_flagE : (s.store a v).flagE = s.flagE := rfl
@[simp] theorem State.store_ir : (s.store a v).ir = s.ir := rfl
@[simp] theorem State.store_opa : (s.store a v).opa = s.opa := rfl
@[simp] theorem State.store_opb : (s.store a v).opb = s.opb := rfl
@[simp] theorem State.store_status : (s.store a v).status = s.status := rfl
@[simp] theorem State.store_cause : (s.store a v).cause = s.cause := rfl
@[simp] theorem State.store_info : (s.store a v).info = s.info := rfl
@[simp] theorem State.store_mem : (s.store a v).mem = s.mem.write a v := rfl
@[simp] theorem State.store_out : (s.store a v).out = s.out := rfl
@[simp] theorem State.store_reg (r : RegIx) : (s.store a v).reg r = s.reg r := rfl
@[simp] theorem State.store_sp : (s.store a v).sp = s.sp := rfl
end

section
variable (s : State) (f : Trap)

@[simp] theorem raise_regs : (raise f s).regs = s.regs := rfl
@[simp] theorem raise_pc : (raise f s).pc = s.pc := rfl
@[simp] theorem raise_flagE : (raise f s).flagE = s.flagE := rfl
@[simp] theorem raise_ir : (raise f s).ir = s.ir := rfl
@[simp] theorem raise_opa : (raise f s).opa = s.opa := rfl
@[simp] theorem raise_opb : (raise f s).opb = s.opb := rfl
@[simp] theorem raise_status : (raise f s).status = .faulted := rfl
@[simp] theorem raise_cause : (raise f s).cause = f.cause := rfl
@[simp] theorem raise_info : (raise f s).info = f.info := rfl
@[simp] theorem raise_mem : (raise f s).mem = s.mem := rfl
@[simp] theorem raise_out : (raise f s).out = s.out := rfl
@[simp] theorem raise_reg (r : RegIx) : (raise f s).reg r = s.reg r := rfl
@[simp] theorem raise_sp : (raise f s).sp = s.sp := rfl
@[simp] theorem raise_load (b : Byte) : (raise f s).load b = s.load b := rfl
end

/-- Reading a register after writing one (R20: each independently mutable). -/
@[simp] theorem State.setReg_reg (s : State) (i j : RegIx) (v : Byte) :
    (s.setReg i v).reg j = if i = j then v else s.reg j := by
  simp only [State.reg, State.setReg, Vector.get_eq_getElem, Vector.getElem_set, Fin.ext_iff]

@[simp] theorem State.setReg_sp (s : State) (i : RegIx) (v : Byte) :
    (s.setReg i v).sp = if i = Config.spIndex then v else s.sp := State.setReg_reg ..

@[simp] theorem State.setSp_reg (s : State) (j : RegIx) (v : Byte) :
    (s.setSp v).reg j = if Config.spIndex = j then v else s.reg j := State.setReg_reg ..

@[simp] theorem State.setSp_sp (s : State) (v : Byte) : (s.setSp v).sp = v := by
  rw [State.sp, State.setSp_reg, if_pos rfl]

/-- `SP` is register 7 (R21). -/
theorem State.reg_spIndex (s : State) : s.reg Config.spIndex = s.sp := rfl

/-- Two writes to one register: the later one stays. -/
theorem State.setReg_setReg (s : State) (i : RegIx) (v w : Byte) : (s.setReg i v).setReg i w = s.setReg i w := by
  simp only [State.setReg, Vector.set_set]

/-- Writes to different registers commute. -/
theorem State.setReg_comm (s : State) {i j : RegIx} (v w : Byte) (h : i ≠ j) :
    (s.setReg i v).setReg j w = (s.setReg j w).setReg i v := by
  have h' : i.val ≠ j.val := fun e => h (Fin.ext e)
  simp only [State.setReg]
  rw [Vector.set_comm _ _ h']

/-- A state is told by its fields, the registers read one by one. -/
theorem State.ext_reg {s t : State} (hr : ∀ r, t.reg r = s.reg r) (hpc : t.pc = s.pc) (he : t.flagE = s.flagE)
    (hir : t.ir = s.ir) (ha : t.opa = s.opa) (hb : t.opb = s.opb) (hs : t.status = s.status)
    (hc : t.cause = s.cause) (hi : t.info = s.info) (hm : t.mem = s.mem) (ho : t.out = s.out) : t = s := by
  have hregs : t.regs = s.regs := Vector.ext fun i hi => hr ⟨i, hi⟩
  cases s; cases t; simp_all

end Sys2Proof.Machine
end

