-- ==== Sys2Proof/Laws/Memory.lean ====
section
/-! SUPPORT. Memory: reading after writing, and that every memory operation keeps the canonical form. -/

namespace Sys2Proof.Machine

@[simp] theorem Memory.read_nil (a : Byte) : Memory.read [] a = Config.memFill := rfl

theorem Memory.read_cons (k : Nat) (v : Byte) (m : Memory) (a : Byte) :
    Memory.read ((k, v) :: m) a = if k = a.toNat then v else m.read a := rfl

theorem Memory.read_insertCell (m : Memory) (a v b : Byte) :
    (Memory.insertCell a.toNat v m).read b = if b = a then v else m.read b := by
  have hab : a.toNat = b.toNat ↔ b = a := by rw [BitVec.toNat_inj, eq_comm]
  induction m with
  | nil => simp [Memory.insertCell, Memory.read_cons, hab]
  | cons c m ih =>
    obtain ⟨k, w⟩ := c
    simp only [Memory.insertCell]
    rcases lt_trichotomy a.toNat k with h | h | h
    · simp only [if_pos h, Memory.read_cons, hab]
    · subst h
      by_cases h1 : b = a <;> simp [Memory.read_cons, hab, h1]
    · rw [if_neg (by omega), if_neg (by omega)]
      by_cases h1 : b = a
      · subst h1; simp [Memory.read_cons, ih, h.ne]
      · simp [Memory.read_cons, ih, h1]

theorem Memory.read_eraseCell (m : Memory) (a b : Byte) :
    (Memory.eraseCell a.toNat m).read b = if b = a then Config.memFill else m.read b := by
  have hab : a.toNat = b.toNat ↔ b = a := by rw [BitVec.toNat_inj, eq_comm]
  induction m with
  | nil => simp [Memory.eraseCell]
  | cons c m ih =>
    obtain ⟨k, w⟩ := c
    simp only [Memory.eraseCell]
    by_cases h : k = a.toNat
    · subst h
      rw [if_pos rfl, ih, Memory.read_cons, if_congr hab rfl rfl]
      by_cases h1 : b = a <;> simp [h1]
    · by_cases h1 : b = a
      · subst h1; simp [Memory.read_cons, ih, h]
      · simp [Memory.read_cons, ih, h, h1]

/-- `MemRead` after `MemWrite`: the byte written at its address, every other cell as it was (R50). -/
@[simp] theorem Memory.read_write (m : Memory) (a v b : Byte) :
    (m.write a v).read b = if b = a then v else m.read b := by
  unfold Memory.write
  by_cases h : v = Config.memFill
  · rw [if_pos h, Memory.read_eraseCell, h]
  · rw [if_neg h, Memory.read_insertCell]

@[simp] theorem State.store_load (s : State) (a v b : Byte) :
    (s.store a v).load b = if b = a then v else s.load b := Memory.read_write ..

theorem Memory.eraseCell_sublist (k : Nat) (m : Memory) : (Memory.eraseCell k m).Sublist m := by
  induction m with
  | nil => exact List.Sublist.slnil
  | cons c m ih =>
    simp only [Memory.eraseCell]
    split_ifs
    · exact ih.cons _
    · exact ih.cons_cons _

theorem Memory.mem_insertCell {k : Nat} {v : Byte} {m : Memory} {c : Host.Cell}
    (h : c ∈ Memory.insertCell k v m) : c = (k, v) ∨ c ∈ m := by
  induction m with
  | nil => simpa [Memory.insertCell] using h
  | cons d m ih =>
    obtain ⟨k', w⟩ := d
    simp only [Memory.insertCell] at h
    split_ifs at h <;> simp only [List.mem_cons] at h ⊢ <;> tauto

theorem Memory.insertCell_wf {m : Memory} (hm : m.wf) {k : Nat} {v : Byte} (hk : k < Config.memSize)
    (hv : v ≠ Config.memFill) : (Memory.insertCell k v m).wf := by
  obtain ⟨hs, hc⟩ := hm
  refine ⟨?_, fun c h => ?_⟩
  · induction m with
    | nil => simp [Memory.insertCell]
    | cons d m ih =>
      obtain ⟨k', w⟩ := d
      simp only [List.map_cons, List.pairwise_cons] at hs
      have ih' := ih hs.2 fun c h => hc c (List.mem_cons_of_mem _ h)
      simp only [Memory.insertCell]
      split_ifs with hlt heq
      · simp only [List.map_cons, List.pairwise_cons, List.mem_cons]
        refine ⟨?_, hs⟩
        rintro a (rfl | ha)
        · exact hlt
        · exact lt_trans hlt (hs.1 a ha)
      · subst heq
        simpa only [List.map_cons, List.pairwise_cons] using hs
      · simp only [List.map_cons, List.pairwise_cons]
        refine ⟨fun a ha => ?_, ih'⟩
        obtain ⟨c, hc1, rfl⟩ := List.mem_map.1 ha
        rcases Memory.mem_insertCell hc1 with rfl | h
        · omega
        · exact hs.1 _ (List.mem_map_of_mem h)
  · rcases Memory.mem_insertCell h with rfl | h
    · exact ⟨hk, hv⟩
    · exact hc c h

/-- A write keeps the canonical form. -/
theorem Memory.write_wf {m : Memory} (hm : m.wf) (a v : Byte) : (m.write a v).wf := by
  unfold Memory.write
  split_ifs with h
  · exact ⟨hm.1.sublist ((Memory.eraseCell_sublist _ m).map _), fun c hc =>
      hm.2 c ((Memory.eraseCell_sublist _ m).subset hc)⟩
  · exact Memory.insertCell_wf hm (by have := a.isLt; simpa [Config.memSize] using this) h

theorem Memory.placeBytes_wf (bs : List Byte) {m : Memory} (hm : m.wf) (a : Nat) :
    (Memory.placeBytes bs a m).wf := by
  induction bs generalizing m a with
  | nil => exact hm
  | cons b bs ih =>
    simp only [Memory.placeBytes]
    split_ifs
    · exact ih (Memory.write_wf hm _ _) _
    · exact hm

/-- The memory of the reset state has the canonical form. -/
theorem State.reset_mem_wf : State.reset.mem.wf := by decide

end Sys2Proof.Machine
end

