-- ==== Sys2Proof/Laws/Ops.lean ====
section
/-! SUPPORT. One lemma per shared operation that says everything it can do: when it passes and with what, when
it fails and with which fault. -/

namespace Sys2Proof.Machine

theorem trunc8_toNat {n : Nat} (h : n ≤ 255) : (trunc8 n).toNat = n := by
  simp only [trunc8, BitVec.toNat_ofNat]; omega

theorem trunc8_eq_iff {n : Nat} (h : n ≤ 255) {t : Byte} : trunc8 n = t ↔ t.toNat = n := by
  rw [← BitVec.toNat_inj, trunc8_toNat h, eq_comm]

@[simp] theorem attempt_ok (s t : State) : attempt s (.ok t) = .next t := rfl
@[simp] theorem attempt_error (s : State) (f : Trap) : attempt s (.error f) = .next (raise f s) := rfl

/-- An attempt always answers a next state: the checked result, or the fault taken on the state it began in. -/
theorem attempt_eq_next {s t : State} {r : Except Trap State} (h : attempt s r = .next t) :
    r = .ok t ∨ ∃ f, r = .error f ∧ t = raise f s := by
  cases r with
  | ok u => simp only [attempt_ok, Host.Outcome.next.injEq] at h; exact .inl (h ▸ rfl)
  | error f => simp only [attempt_error, Host.Outcome.next.injEq] at h; exact .inr ⟨f, rfl, h.symm⟩

@[simp] theorem except_bind_ok {ε α β : Type} (a : α) (g : α → Except ε β) :
    (Except.ok a >>= g : Except ε β) = g a := rfl
@[simp] theorem except_bind_error {ε α β : Type} (e : ε) (g : α → Except ε β) :
    (Except.error e >>= g : Except ε β) = .error e := rfl
@[simp] theorem except_pure {ε α : Type} (a : α) : (pure a : Except ε α) = .ok a := rfl

theorem except_bind_eq_ok {ε α β : Type} {x : Except ε α} {g : α → Except ε β} {b : β} :
    (x >>= g) = .ok b ↔ ∃ a, x = .ok a ∧ g a = .ok b := by
  cases x <;> simp

theorem except_bind_eq_error {ε α β : Type} {x : Except ε α} {g : α → Except ε β} {e : ε} :
    (x >>= g) = .error e ↔ x = .error e ∨ ∃ a, x = .ok a ∧ g a = .error e := by
  cases x <;> simp

/-- The sequential next PC is `pc + len`, exactly (R107). -/
theorem nextPc_eq_ok {len : Nat} {s : State} {t : Byte} :
    nextPc len s = .ok t ↔ t.toNat = s.pc.toNat + len := by
  unfold nextPc
  split_ifs with h
  · have := t.isLt; constructor <;> intro h' <;> first | cases h' | omega
  · rw [Except.ok.injEq, trunc8_eq_iff (by omega)]

theorem nextPc_eq_error {len : Nat} {s : State} {f : Trap} :
    nextPc len s = .error f ↔ f = .outOfBounds .nextPc ∧ 255 < s.pc.toNat + len := by
  unfold nextPc
  split_ifs with h
  · simp [h, eq_comm]
  · simp [h]

/-- CALL's return address is `pc + 2`, exactly (R151). -/
theorem returnAddress_eq_ok {s : State} {t : Byte} :
    returnAddress s = .ok t ↔ t.toNat = s.pc.toNat + 2 := by
  unfold returnAddress
  split_ifs with h
  · have := t.isLt; constructor <;> intro h' <;> first | cases h' | omega
  · rw [Except.ok.injEq, trunc8_eq_iff (by omega)]

theorem returnAddress_eq_error {s : State} {f : Trap} :
    returnAddress s = .error f ↔ f = .outOfBounds .returnAddress ∧ 255 < s.pc.toNat + 2 := by
  unfold returnAddress
  split_ifs with h
  · simp [h, eq_comm]
  · simp [h]

/-- A push's slot is `SP - 1`, exactly (R141). -/
theorem pushSlot_eq_ok {s : State} {t : Byte} : pushSlot s = .ok t ↔ t.toNat + 1 = s.sp.toNat := by
  unfold pushSlot
  split_ifs with h
  · constructor <;> intro h' <;> first | cases h' | omega
  · have := s.sp.isLt
    rw [Except.ok.injEq, trunc8_eq_iff (by omega)]; omega

theorem pushSlot_eq_error {s : State} {f : Trap} :
    pushSlot s = .error f ↔ f = .outOfBounds .spUnderflow ∧ s.sp.toNat = 0 := by
  unfold pushSlot
  split_ifs with h
  · simp [h, eq_comm]
  · simp [h]

/-- A pop's new stack pointer is the value incremented, exactly (R141). -/
theorem popIncrement_eq_ok {v t : Byte} : popIncrement v = .ok t ↔ t.toNat = v.toNat + 1 := by
  unfold popIncrement
  split_ifs with h
  · have := t.isLt; constructor <;> intro h' <;> first | cases h' | omega
  · rw [Except.ok.injEq, trunc8_eq_iff (by omega)]

theorem popIncrement_eq_error {v : Byte} {f : Trap} :
    popIncrement v = .error f ↔ f = .outOfBounds .spOverflow ∧ v.toNat = 255 := by
  have := v.isLt
  unfold popIncrement
  split_ifs with h
  · simp [eq_comm]; omega
  · simp; omega

/-- Phase O passes where the operand bytes exist (R104). -/
theorem operandsInRange_eq_ok {n : Nat} {s : State} {u : Unit} :
    operandsInRange n s = .ok u ↔ s.pc.toNat + n ≤ 255 := by
  unfold operandsInRange
  split_ifs with h <;> simp <;> omega

theorem operandsInRange_eq_error {n : Nat} {s : State} {f : Trap} :
    operandsInRange n s = .error f ↔ f = .outOfBounds .operand ∧ 255 < s.pc.toNat + n := by
  unfold operandsInRange
  split_ifs with h
  · simp [h, eq_comm]
  · simp [h]

/-- Phase R gives the register the operand byte names, the whole byte (R82, R105). -/
theorem registerIndex_eq_ok {b : Byte} {r : RegIx} : registerIndex b = .ok r ↔ r.val = b.toNat := by
  unfold registerIndex
  split_ifs with h
  · rw [Except.ok.injEq, Fin.ext_iff, eq_comm]
  · have := r.isLt; constructor <;> intro h' <;> first | cases h' | omega

theorem registerIndex_eq_error {b : Byte} {f : Trap} :
    registerIndex b = .error f ↔ f = .registerIndexOutOfRange b ∧ 7 < b.toNat := by
  unfold registerIndex
  split_ifs with h
  · simp; omega
  · simp [eq_comm]; omega

end Sys2Proof.Machine
end

