-- ==== Sys2Proof/Laws/Exec.lean ====
section
/-! SUPPORT. The inversion of `exec`: a next state is a raisable fault taken on the state before, or the
instruction's effect with every guard it passed. Later proofs cite `exec_cases` and unfold no meaning. -/

namespace Sys2Proof.Machine

/-- What each instruction does where it completes, guards included. -/
def Effect (i : Instr) (s t : State) : Prop :=
  match i with
  | .ldi a imm => ∃ (ra : RegIx) (p : Byte), ra.val = a.toNat ∧ p.toNat = s.pc.toNat + 3 ∧
      t = (s.setReg ra imm).setPc p
  | .prn a => ∃ (ra : RegIx) (p : Byte), ra.val = a.toNat ∧ p.toNat = s.pc.toNat + 2 ∧
      t = (s.emit (s.reg ra)).setPc p
  | .hlt => t = s.halt
  | .mul a b => ∃ (ra rb : RegIx) (p : Byte), ra.val = a.toNat ∧ rb.val = b.toNat ∧ p.toNat = s.pc.toNat + 3 ∧
      t = (s.setReg ra (aluProduct (s.reg ra) (s.reg rb))).setPc p
  | .add a b => ∃ (ra rb : RegIx) (p : Byte), ra.val = a.toNat ∧ rb.val = b.toNat ∧ p.toNat = s.pc.toNat + 3 ∧
      t = (s.setReg ra (aluSum (s.reg ra) (s.reg rb))).setPc p
  | .cmp a b => ∃ (ra rb : RegIx) (p : Byte), ra.val = a.toNat ∧ rb.val = b.toNat ∧ p.toNat = s.pc.toNat + 3 ∧
      t = (s.setFlag (equalFlag (s.reg ra) (s.reg rb))).setPc p
  | .pop a => ∃ (ra : RegIx) (p n : Byte), ra.val = a.toNat ∧ p.toNat = s.pc.toNat + 2 ∧
      n.toNat = (if ra = Config.spIndex then s.load s.sp else s.sp).toNat + 1 ∧
      t = ((s.setReg ra (s.load s.sp)).setSp n).setPc p
  | .push a => ∃ (ra : RegIx) (p n : Byte), ra.val = a.toNat ∧ p.toNat = s.pc.toNat + 2 ∧ pushSlot s = .ok n ∧
      t = ((s.setSp n).store n (if ra = Config.spIndex then n else s.reg ra)).setPc p
  | .call a => ∃ (ra : RegIx) (back n : Byte), ra.val = a.toNat ∧ back.toNat = s.pc.toNat + 2 ∧
      pushSlot s = .ok n ∧
      t = ((s.setSp n).store n back).setPc (if ra = Config.spIndex then n else s.reg ra)
  | .ret => ∃ n : Byte, n.toNat = s.sp.toNat + 1 ∧ t = (s.setSp n).setPc (s.load s.sp)
  | .jmp a => ∃ ra : RegIx, ra.val = a.toNat ∧ s.pc.toNat + 1 ≤ 255 ∧ t = s.setPc (s.reg ra)
  | .jeq a => ∃ (ra : RegIx) (p : Byte), ra.val = a.toNat ∧ s.pc.toNat + 1 ≤ 255 ∧
      (if s.flagE then p = s.reg ra else p.toNat = s.pc.toNat + 2) ∧ t = s.setPc p
  | .jne a => ∃ (ra : RegIx) (p : Byte), ra.val = a.toNat ∧ s.pc.toNat + 1 ≤ 255 ∧
      (if s.flagE then p.toNat = s.pc.toNat + 2 else p = s.reg ra) ∧ t = s.setPc p

theorem oneRegister_eq_ok {a : Byte} {s : State} {r : RegIx} :
    oneRegister a s = .ok r ↔ s.pc.toNat + 1 ≤ 255 ∧ r.val = a.toNat := by
  simp [oneRegister, except_bind_eq_ok, operandsInRange_eq_ok, registerIndex_eq_ok]

theorem registerAndImmediate_eq_ok {a : Byte} {s : State} {r : RegIx} :
    registerAndImmediate a s = .ok r ↔ s.pc.toNat + 2 ≤ 255 ∧ r.val = a.toNat := by
  simp [registerAndImmediate, except_bind_eq_ok, operandsInRange_eq_ok, registerIndex_eq_ok]

theorem twoRegisters_eq_ok {a b : Byte} {s : State} {p : RegIx × RegIx} :
    twoRegisters a b s = .ok p ↔ s.pc.toNat + 2 ≤ 255 ∧ p.1.val = a.toNat ∧ p.2.val = b.toNat := by
  obtain ⟨x, y⟩ := p
  simp only [twoRegisters, except_bind_eq_ok, operandsInRange_eq_ok, registerIndex_eq_ok, except_pure,
    Except.ok.injEq, Prod.mk.injEq]
  constructor
  · rintro ⟨-, h, r, hr, q, hq, rfl, rfl⟩; exact ⟨h, hr, hq⟩
  · rintro ⟨h, hr, hq⟩; exact ⟨(), h, x, hr, y, hq, rfl, rfl⟩

theorem oneRegister_raisable {a : Byte} {s : State} {f : Trap} (h : oneRegister a s = .error f) :
    f.raisable := by
  simp only [oneRegister, except_bind_eq_error, operandsInRange_eq_error, registerIndex_eq_error] at h
  rcases h with ⟨rfl, -⟩ | ⟨_, -, rfl, h⟩
  · trivial
  · exact h

theorem registerAndImmediate_raisable {a : Byte} {s : State} {f : Trap}
    (h : registerAndImmediate a s = .error f) : f.raisable := by
  simp only [registerAndImmediate, except_bind_eq_error, operandsInRange_eq_error, registerIndex_eq_error] at h
  rcases h with ⟨rfl, -⟩ | ⟨_, -, rfl, h⟩
  · trivial
  · exact h

theorem twoRegisters_raisable {a b : Byte} {s : State} {f : Trap} (h : twoRegisters a b s = .error f) :
    f.raisable := by
  simp only [twoRegisters, except_bind_eq_error, operandsInRange_eq_error, registerIndex_eq_error,
    except_pure, reduceCtorEq, and_false, exists_false, or_false] at h
  rcases h with ⟨rfl, -⟩ | ⟨_, -, ⟨rfl, h⟩ | ⟨_, -, rfl, h⟩⟩
  · trivial
  · exact h
  · exact h

section
variable {s t : State}

theorem execLdi_cases {a imm : Byte} (h : execLdi a imm s = .next t) :
    (∃ f : Trap, f.raisable ∧ t = raise f s) ∨ Effect (.ldi a imm) s t := by
  rcases attempt_eq_next h with h | ⟨f, he, rfl⟩
  · simp only [except_bind_eq_ok, registerAndImmediate_eq_ok, nextPc_eq_ok, except_pure, Except.ok.injEq] at h
    obtain ⟨ra, ⟨-, hr⟩, p, hp, rfl⟩ := h
    exact .inr ⟨ra, p, hr, hp, rfl⟩
  · simp only [except_bind_eq_error, nextPc_eq_error, except_pure, reduceCtorEq, and_false, exists_false,
      or_false] at he
    rcases he with he | ⟨_, -, rfl, -⟩
    · exact .inl ⟨f, registerAndImmediate_raisable he, rfl⟩
    · exact .inl ⟨_, trivial, rfl⟩

theorem execPrn_cases {a : Byte} (h : execPrn a s = .next t) :
    (∃ f : Trap, f.raisable ∧ t = raise f s) ∨ Effect (.prn a) s t := by
  rcases attempt_eq_next h with h | ⟨f, he, rfl⟩
  · simp only [except_bind_eq_ok, oneRegister_eq_ok, nextPc_eq_ok, except_pure, Except.ok.injEq] at h
    obtain ⟨ra, ⟨-, hr⟩, p, hp, rfl⟩ := h
    exact .inr ⟨ra, p, hr, hp, rfl⟩
  · simp only [except_bind_eq_error, nextPc_eq_error, except_pure, reduceCtorEq, and_false, exists_false,
      or_false] at he
    rcases he with he | ⟨_, -, rfl, -⟩
    · exact .inl ⟨f, oneRegister_raisable he, rfl⟩
    · exact .inl ⟨_, trivial, rfl⟩

theorem execHlt_cases (h : execHlt s = .next t) : Effect .hlt s t := by
  simpa [execHlt, Effect, eq_comm] using h

/-- The three ALU instructions at once. -/
theorem aluInstr_cases {op : AluOp} {a b : Byte} (h : aluInstr op a b s = .next t) :
    (∃ f : Trap, f.raisable ∧ t = raise f s) ∨
      ∃ (ra rb : RegIx) (p : Byte), ra.val = a.toNat ∧ rb.val = b.toNat ∧ p.toNat = s.pc.toNat + 3 ∧
        t = (aluWrite op ra rb s).setPc p := by
  rcases attempt_eq_next h with h | ⟨f, he, rfl⟩
  · simp only [except_bind_eq_ok, twoRegisters_eq_ok, nextPc_eq_ok, except_pure, Except.ok.injEq] at h
    obtain ⟨⟨ra, rb⟩, ⟨-, hr, hq⟩, p, hp, rfl⟩ := h
    exact .inr ⟨ra, rb, p, hr, hq, hp, rfl⟩
  · simp only [except_bind_eq_error, nextPc_eq_error, except_pure, reduceCtorEq, and_false, exists_false,
      or_false] at he
    rcases he with he | ⟨_, -, rfl, -⟩
    · exact .inl ⟨f, twoRegisters_raisable he, rfl⟩
    · exact .inl ⟨_, trivial, rfl⟩

theorem execPop_cases {a : Byte} (h : execPop a s = .next t) :
    (∃ f : Trap, f.raisable ∧ t = raise f s) ∨ Effect (.pop a) s t := by
  rcases attempt_eq_next h with h | ⟨f, he, rfl⟩
  · simp only [except_bind_eq_ok, oneRegister_eq_ok, popIncrement_eq_ok, nextPc_eq_ok, except_pure,
      Except.ok.injEq] at h
    obtain ⟨ra, ⟨-, hr⟩, n, hn, p, hp, rfl⟩ := h
    exact .inr ⟨ra, p, n, hr, hp, hn, rfl⟩
  · simp only [except_bind_eq_error, popIncrement_eq_error, nextPc_eq_error, except_pure, reduceCtorEq,
      and_false, exists_false, or_false] at he
    rcases he with he | ⟨_, -, ⟨rfl, -⟩ | ⟨_, -, rfl, -⟩⟩
    · exact .inl ⟨f, oneRegister_raisable he, rfl⟩
    · exact .inl ⟨_, trivial, rfl⟩
    · exact .inl ⟨_, trivial, rfl⟩

theorem execPush_cases {a : Byte} (h : execPush a s = .next t) :
    (∃ f : Trap, f.raisable ∧ t = raise f s) ∨ Effect (.push a) s t := by
  rcases attempt_eq_next h with h | ⟨f, he, rfl⟩
  · simp only [except_bind_eq_ok, oneRegister_eq_ok, nextPc_eq_ok, except_pure, Except.ok.injEq] at h
    obtain ⟨ra, ⟨-, hr⟩, n, hn, p, hp, rfl⟩ := h
    exact .inr ⟨ra, p, n, hr, hp, hn, rfl⟩
  · simp only [except_bind_eq_error, pushSlot_eq_error, nextPc_eq_error, except_pure, reduceCtorEq,
      and_false, exists_false, or_false] at he
    rcases he with he | ⟨_, -, ⟨rfl, -⟩ | ⟨_, -, rfl, -⟩⟩
    · exact .inl ⟨f, oneRegister_raisable he, rfl⟩
    · exact .inl ⟨_, trivial, rfl⟩
    · exact .inl ⟨_, trivial, rfl⟩

theorem execCall_cases {a : Byte} (h : execCall a s = .next t) :
    (∃ f : Trap, f.raisable ∧ t = raise f s) ∨ Effect (.call a) s t := by
  rcases attempt_eq_next h with h | ⟨f, he, rfl⟩
  · simp only [except_bind_eq_ok, oneRegister_eq_ok, returnAddress_eq_ok, except_pure, Except.ok.injEq] at h
    obtain ⟨ra, ⟨-, hr⟩, back, hb, n, hn, rfl⟩ := h
    exact .inr ⟨ra, back, n, hr, hb, hn, rfl⟩
  · simp only [except_bind_eq_error, pushSlot_eq_error, returnAddress_eq_error, except_pure, reduceCtorEq,
      and_false, exists_false, or_false] at he
    rcases he with he | ⟨_, -, ⟨rfl, -⟩ | ⟨_, -, rfl, -⟩⟩
    · exact .inl ⟨f, oneRegister_raisable he, rfl⟩
    · exact .inl ⟨_, trivial, rfl⟩
    · exact .inl ⟨_, trivial, rfl⟩

theorem execRet_cases (h : execRet s = .next t) :
    (∃ f : Trap, f.raisable ∧ t = raise f s) ∨ Effect .ret s t := by
  rcases attempt_eq_next h with h | ⟨f, he, rfl⟩
  · simp only [except_bind_eq_ok, popIncrement_eq_ok, except_pure, Except.ok.injEq] at h
    obtain ⟨n, hn, rfl⟩ := h
    exact .inr ⟨n, hn, rfl⟩
  · simp only [except_bind_eq_error, popIncrement_eq_error, except_pure, reduceCtorEq, and_false,
      exists_false, or_false] at he
    obtain ⟨rfl, -⟩ := he
    exact .inl ⟨_, trivial, rfl⟩

theorem execJmp_cases {a : Byte} (h : execJmp a s = .next t) :
    (∃ f : Trap, f.raisable ∧ t = raise f s) ∨ Effect (.jmp a) s t := by
  rcases attempt_eq_next h with h | ⟨f, he, rfl⟩
  · simp only [except_bind_eq_ok, oneRegister_eq_ok, except_pure, Except.ok.injEq] at h
    obtain ⟨ra, ⟨hp, hr⟩, rfl⟩ := h
    exact .inr ⟨ra, hr, hp, rfl⟩
  · simp only [except_bind_eq_error, except_pure, reduceCtorEq, and_false, exists_false, or_false] at he
    exact .inl ⟨f, oneRegister_raisable he, rfl⟩

/-- JEQ and JNE at once. -/
theorem branch_cases {taken : Bool} {a : Byte} (h : branch taken a s = .next t) :
    (∃ f : Trap, f.raisable ∧ t = raise f s) ∨
      ∃ (ra : RegIx) (p : Byte), ra.val = a.toNat ∧ s.pc.toNat + 1 ≤ 255 ∧
        (if taken then p = s.reg ra else p.toNat = s.pc.toNat + 2) ∧ t = s.setPc p := by
  rcases attempt_eq_next h with h | ⟨f, he, rfl⟩
  · simp only [except_bind_eq_ok, oneRegister_eq_ok, except_pure, Except.ok.injEq] at h
    obtain ⟨ra, ⟨hp, hr⟩, p, ht, rfl⟩ := h
    refine .inr ⟨ra, p, hr, hp, ?_, rfl⟩
    cases taken
    · exact nextPc_eq_ok.1 ht
    · exact (Except.ok.inj ht).symm
  · simp only [except_bind_eq_error, except_pure, reduceCtorEq, and_false, exists_false, or_false] at he
    rcases he with he | ⟨ra, -, he⟩
    · exact .inl ⟨f, oneRegister_raisable he, rfl⟩
    · cases taken
      · obtain ⟨rfl, -⟩ := nextPc_eq_error.1 (by simpa [branchTarget] using he)
        exact .inl ⟨_, trivial, rfl⟩
      · simp [branchTarget] at he

end

/-- Everything an instruction can do: a raisable fault taken on the state before, or its effect. -/
theorem exec_cases {i : Instr} {s t : State} (h : exec i s = .next t) :
    (∃ f : Trap, f.raisable ∧ t = raise f s) ∨ Effect i s t := by
  cases i with
  | ldi a imm => exact execLdi_cases h
  | prn a => exact execPrn_cases h
  | hlt => exact .inr (execHlt_cases h)
  | mul a b => exact aluInstr_cases (op := .mul) h
  | add a b => exact aluInstr_cases (op := .add) h
  | cmp a b => exact aluInstr_cases (op := .cmp) h
  | pop a => exact execPop_cases h
  | push a => exact execPush_cases h
  | call a => exact execCall_cases h
  | ret => exact execRet_cases h
  | jmp a => exact execJmp_cases h
  | jeq a => exact branch_cases h
  | jne a =>
    rcases branch_cases h with h | ⟨ra, p, hr, hp, ht, rfl⟩
    · exact .inl h
    · refine .inr ⟨ra, p, hr, hp, ?_, rfl⟩
      revert ht
      cases hf : s.flagE <;> simp [jumpsIfNotEqual, hf]

/-- An attempt is never a stop. -/
theorem attempt_answers_next (s : State) (r : Except Trap State) : ∃ t, attempt s r = .next t := by
  cases r with
  | ok t => exact ⟨t, rfl⟩
  | error f => exact ⟨_, rfl⟩

/-- No instruction stops the model: `exec` answers a next state on every state. -/
theorem exec_answers_next (i : Instr) (s : State) : ∃ t, exec i s = .next t := by
  cases i with
  | hlt => exact ⟨_, rfl⟩
  | _ => exact attempt_answers_next s _

end Sys2Proof.Machine
end

