-- ==== Sys2Proof/Laws/Step.lean ====
section
/-! SUPPORT. What `step` can do, and what the fetch leaves unchanged. -/

namespace Sys2Proof.Machine

section
variable (s : State)

theorem loadOpa_frame : ∃ v, loadOpa s = { s with opa := v } := by
  unfold loadOpa
  split
  · split_ifs <;> exact ⟨_, rfl⟩
  · exact ⟨_, rfl⟩

theorem loadOpb_frame : ∃ v, loadOpb s = { s with opb := v } := by
  unfold loadOpb
  split
  · split_ifs <;> exact ⟨_, rfl⟩
  · exact ⟨_, rfl⟩

/-- The fetch writes the latches and nothing else. -/
theorem loadLatches_frame : ∃ ir opa opb, loadLatches s = { s with ir := ir, opa := opa, opb := opb } := by
  obtain ⟨v, hv⟩ := loadOpa_frame (loadIr s)
  obtain ⟨w, hw⟩ := loadOpb_frame (loadOpa (loadIr s))
  exact ⟨s.load s.pc, v, w, by rw [loadLatches, hw, hv]; rfl⟩

/-- Phase F: `ir` holds the byte at `pc` (R101). -/
@[simp] theorem loadLatches_ir : (loadLatches s).ir = s.load s.pc := by
  obtain ⟨v, hv⟩ := loadOpa_frame (loadIr s)
  obtain ⟨w, hw⟩ := loadOpb_frame (loadOpa (loadIr s))
  rw [loadLatches, hw, hv]; rfl

@[simp] theorem loadLatches_regs : (loadLatches s).regs = s.regs := by
  obtain ⟨_, _, _, h⟩ := loadLatches_frame s; rw [h]
@[simp] theorem loadLatches_pc : (loadLatches s).pc = s.pc := by
  obtain ⟨_, _, _, h⟩ := loadLatches_frame s; rw [h]
@[simp] theorem loadLatches_flagE : (loadLatches s).flagE = s.flagE := by
  obtain ⟨_, _, _, h⟩ := loadLatches_frame s; rw [h]
@[simp] theorem loadLatches_status : (loadLatches s).status = s.status := by
  obtain ⟨_, _, _, h⟩ := loadLatches_frame s; rw [h]
@[simp] theorem loadLatches_cause : (loadLatches s).cause = s.cause := by
  obtain ⟨_, _, _, h⟩ := loadLatches_frame s; rw [h]
@[simp] theorem loadLatches_info : (loadLatches s).info = s.info := by
  obtain ⟨_, _, _, h⟩ := loadLatches_frame s; rw [h]
@[simp] theorem loadLatches_mem : (loadLatches s).mem = s.mem := by
  obtain ⟨_, _, _, h⟩ := loadLatches_frame s; rw [h]
@[simp] theorem loadLatches_out : (loadLatches s).out = s.out := by
  obtain ⟨_, _, _, h⟩ := loadLatches_frame s; rw [h]
@[simp] theorem loadLatches_reg (r : RegIx) : (loadLatches s).reg r = s.reg r := by
  simp [State.reg]
@[simp] theorem loadLatches_sp : (loadLatches s).sp = s.sp := loadLatches_reg ..
@[simp] theorem loadLatches_load (a : Byte) : (loadLatches s).load a = s.load a := by
  simp [State.load]

end

/-- The decoder rejects only what the core may raise IllegalOpcode or OutOfBounds(OPERAND) for. -/
theorem decodeTrap_raisable {bs : List Byte} {e : DecodeError} (h : decode bs = .error e) :
    (decodeTrap e).raisable := by
  cases bs with
  | nil => cases h; trivial
  | cons b rest =>
    simp only [decode] at h
    split at h
    · cases h; assumption
    · simp only [Opcode.readOperands] at h
      split at h <;> cases h
      trivial

/-- Everything a step can do: a fault of phases D and O, or the fetched instruction. -/
theorem step_cases {s t : State} (h : step s = .next t) :
    s.status = .running ∧
      ((∃ f : Trap, f.raisable ∧ fetchInstr s = .error f ∧ t = raise f (loadLatches s)) ∨
        ∃ i, fetchInstr s = .ok i ∧ exec i (loadLatches s) = .next t) := by
  have hs : s.status = .running := by
    simp only [step, stopped] at h
    cases hs : s.status <;> simp [hs] at h ⊢
  refine ⟨hs, ?_⟩
  simp only [step, stopped, hs] at h
  cases hf : fetchInstr s with
  | ok i => rw [hf] at h; exact .inr ⟨i, rfl, h⟩
  | error f =>
    rw [hf] at h
    refine .inl ⟨f, ?_, rfl, (Host.Outcome.next.inj h).symm⟩
    simp only [fetchInstr] at hf
    split at hf
    · cases hf
    · cases hf; exact decodeTrap_raisable ‹_›

/-- A running core's step is the fetched instruction, or the fault of its fetch. -/
theorem step_running {s : State} (hs : s.status = .running) :
    step s = match fetchInstr s with
      | .ok i => exec i (loadLatches s)
      | .error f => .next (raise f (loadLatches s)) := by
  cases hf : fetchInstr s <;> simp only [step, stopped, hs, hf]

end Sys2Proof.Machine
end

