-- ==== Sys2Proof/Laws/Forward.lean ====
section
/-! SUPPORT. The shared operations run forward: with what each check answers under the bounds it asks for, and
the legal register operands. `simp` with these runs an instruction that passes its checks. -/

namespace Sys2Proof.Machine

@[simp] theorem regByte_toNat (r : RegIx) : (regByte r).toNat = r.val := by
  revert r; decide

theorem regByte_inj {r q : RegIx} (h : regByte r = regByte q) : r = q := by
  rw [Fin.ext_iff, ← regByte_toNat r, ← regByte_toNat q, h]

@[simp] theorem registerIndex_regByte (r : RegIx) : registerIndex (regByte r) = .ok r := by
  rw [registerIndex_eq_ok, regByte_toNat]

section
variable {s : State}

theorem nextPc_le {n : Nat} (h : s.pc.toNat + n ≤ 255) :
    ∃ p, nextPc n s = .ok p ∧ p.toNat = s.pc.toNat + n :=
  ⟨trunc8 (s.pc.toNat + n), nextPc_eq_ok.2 (trunc8_toNat h), trunc8_toNat h⟩

theorem returnAddress_le (h : s.pc.toNat + 2 ≤ 255) :
    ∃ p, returnAddress s = .ok p ∧ p.toNat = s.pc.toNat + 2 :=
  ⟨trunc8 (s.pc.toNat + 2), returnAddress_eq_ok.2 (trunc8_toNat h), trunc8_toNat h⟩

theorem pushSlot_pos (h : 1 ≤ s.sp.toNat) : ∃ n, pushSlot s = .ok n ∧ n.toNat + 1 = s.sp.toNat := by
  have := s.sp.isLt
  refine ⟨trunc8 (s.sp.toNat - 1), pushSlot_eq_ok.2 ?_, ?_⟩ <;> rw [trunc8_toNat (by omega)] <;> omega

theorem popIncrement_le {v : Byte} (h : v.toNat ≤ 254) :
    ∃ n, popIncrement v = .ok n ∧ n.toNat = v.toNat + 1 :=
  ⟨trunc8 (v.toNat + 1), popIncrement_eq_ok.2 (trunc8_toNat (by omega)), trunc8_toNat (by omega)⟩

theorem oneRegister_regByte (r : RegIx) (h : s.pc.toNat ≤ 254) : oneRegister (regByte r) s = .ok r :=
  oneRegister_eq_ok.2 ⟨by omega, (regByte_toNat r).symm⟩

theorem registerAndImmediate_regByte (r : RegIx) (h : s.pc.toNat ≤ 253) :
    registerAndImmediate (regByte r) s = .ok r :=
  registerAndImmediate_eq_ok.2 ⟨by omega, (regByte_toNat r).symm⟩

theorem twoRegisters_regByte (a b : RegIx) (h : s.pc.toNat ≤ 253) :
    twoRegisters (regByte a) (regByte b) s = .ok (a, b) :=
  twoRegisters_eq_ok.2 ⟨by omega, (regByte_toNat a).symm, (regByte_toNat b).symm⟩

end

/-- The ALU's sum and product are the byte operations of the word type. -/
theorem aluSum_eq (x y : Byte) : aluSum x y = x + y := by
  apply BitVec.eq_of_toNat_eq; simp [aluSum, trunc8]

theorem aluProduct_eq (x y : Byte) : aluProduct x y = x * y := by
  apply BitVec.eq_of_toNat_eq; simp [aluProduct, trunc8]

end Sys2Proof.Machine
end

