-- ==== Sys2Proof/Laws/PerInstr.lean ====
section
/-! SUPPORT. The family EncodedShape, one lemma per constructor: the first byte of an encoding is the opcode of
exactly the row the dispatch matches, and the row's length is the encoding's (30_encoding.md R80, R83, R91). -/

namespace Sys2Proof.Laws.EncodedShape

/-- The dispatch matches the instruction's opcode byte, the row's length is the encoding's, and the row makes the
instruction of its own operand bytes. -/
def Statement (i : Instr) : Prop :=
  ∃ o, dispatch i.opcodeByte = some o ∧ o.length = i.length ∧ o.operands = i.operandBytes.length ∧
    o.instr (i.operandBytes.getD 0 0) (i.operandBytes.getD 1 0) = i

theorem ldi (a imm : Byte) : Statement (.ldi a imm) := ⟨.ldi, rfl, rfl, rfl, rfl⟩
theorem prn (a : Byte) : Statement (.prn a) := ⟨.prn, rfl, rfl, rfl, rfl⟩
theorem hlt : Statement .hlt := ⟨.hlt, rfl, rfl, rfl, rfl⟩
theorem mul (a b : Byte) : Statement (.mul a b) := ⟨.mul, rfl, rfl, rfl, rfl⟩
theorem add (a b : Byte) : Statement (.add a b) := ⟨.add, rfl, rfl, rfl, rfl⟩
theorem cmp (a b : Byte) : Statement (.cmp a b) := ⟨.cmp, rfl, rfl, rfl, rfl⟩
theorem pop (a : Byte) : Statement (.pop a) := ⟨.pop, rfl, rfl, rfl, rfl⟩
theorem push (a : Byte) : Statement (.push a) := ⟨.push, rfl, rfl, rfl, rfl⟩
theorem call (a : Byte) : Statement (.call a) := ⟨.call, rfl, rfl, rfl, rfl⟩
theorem ret : Statement .ret := ⟨.ret, rfl, rfl, rfl, rfl⟩
theorem jmp (a : Byte) : Statement (.jmp a) := ⟨.jmp, rfl, rfl, rfl, rfl⟩
theorem jeq (a : Byte) : Statement (.jeq a) := ⟨.jeq, rfl, rfl, rfl, rfl⟩
theorem jne (a : Byte) : Statement (.jne a) := ⟨.jne, rfl, rfl, rfl, rfl⟩

end Sys2Proof.Laws.EncodedShape
end

