-- ==== Sys2Proof/Laws/Run.lean ====
section
/-! SUPPORT. The steps of a run: its first, its last, what follows the end, and the induction along it. -/

namespace Sys2Proof.Machine

@[simp] theorem stateAfter_zero (s : State) : stateAfter 0 s = s := rfl

theorem stateAfter_of_next {s t : State} (h : step s = .next t) (n : Nat) :
    stateAfter (n + 1) s = stateAfter n t := by
  simp only [stateAfter, h]

/-- A core that is not RUNNING has no step. -/
theorem step_ne_next {s : State} (hs : s.status ≠ .running) (t : State) : step s ≠ .next t :=
  fun h => hs (step_cases h).1

/-- Nothing follows the end of a run. -/
theorem stateAfter_stopped {s : State} (hs : s.status ≠ .running) (n : Nat) : stateAfter n s = s := by
  cases n with
  | zero => rfl
  | succ n =>
    simp only [stateAfter]
    split
    · exact absurd ‹_› (step_ne_next hs _)
    · rfl
    · rfl

/-- A RUNNING core's next state, as the first step of its run. -/
theorem step_eq_stateAfter_one {s : State} (hs : s.status = .running) : step s = .next (stateAfter 1 s) := by
  have ⟨t, h⟩ : ∃ t, step s = .next t := by
    rw [step_running hs]
    split
    · exact exec_answers_next _ _
    · exact ⟨_, rfl⟩
  rw [stateAfter_of_next h, h, stateAfter_zero]

theorem stateAfter_add (m n : Nat) (s : State) : stateAfter (m + n) s = stateAfter n (stateAfter m s) := by
  induction m generalizing s with
  | zero => rw [Nat.zero_add, stateAfter_zero]
  | succ m ih =>
    by_cases hs : s.status = .running
    · have h := step_eq_stateAfter_one hs
      rw [Nat.succ_add, stateAfter_of_next h (m + n), stateAfter_of_next h m, ih]
    · simp only [stateAfter_stopped hs]

/-- What every step keeps holds along the run. -/
theorem stateAfter_keeps {P : State → Prop} (hstep : ∀ s t, P s → step s = .next t → P t) {s : State} (h : P s)
    (n : Nat) : P (stateAfter n s) := by
  induction n generalizing s with
  | zero => exact h
  | succ n ih =>
    by_cases hs : s.status = .running
    · have h1 := step_eq_stateAfter_one hs
      rw [stateAfter_of_next h1]
      exact ih (hstep _ _ h h1)
    · rwa [stateAfter_stopped hs]

end Sys2Proof.Machine
end

