-- ==== Sys2Proof/Tests/Slice0.lean ====
section
/-! SUPPORT. The model's own tests. Expected results are from 95_test_vectors.md (the V- ids in the names), from the
tables of 30_encoding.md, or worked by hand from the rules; then one witness for each statement with hypotheses. -/

namespace Sys2Proof.Tests
open Sys2Proof Sys2Proof.Machine

/-- The reset state with `pc`, the bytes there, and some registers set. -/
def start (pc : Byte) (bytes : List Byte) (regs : List (RegIx × Byte)) : State :=
  regs.foldl (fun s p => s.setReg p.1 p.2)
    { State.reset with pc := pc, mem := Memory.placeBytes bytes pc.toNat [] }

/-- What an outcome's next state satisfies, false where there is none. -/
def ends (o : Host.Outcome State Fault Refusal) (p : State → Bool) : Bool :=
  match o with
  | .next t => p t
  | _ => false

/-- FAULTED with this cause, information and PC. -/
def faultedWith (c : Cause) (info pc : Byte) (t : State) : Bool :=
  t.status == .faulted && t.cause == c && t.info == info && t.pc == pc

/-! ### Well-formedness -/

theorem test_wf_accepts : (Instr.ldi 7 255).wf = true ∧ (Instr.cmp 0 7).wf = true ∧ Instr.ret.wf = true := by decide
theorem test_wf_refuses_opa : (Instr.ldi 8 0).wf = false ∧ (Instr.prn 255).wf = false ∧ (Instr.jne 8).wf = false := by
  decide
theorem test_wf_refuses_opb : (Instr.mul 0 8).wf = false ∧ (Instr.add 7 9).wf = false ∧ (Instr.cmp 1 128).wf = false := by
  decide
theorem test_wf_refuses_stack_and_call :
    (Instr.pop 8).wf = false ∧ (Instr.push 9).wf = false ∧ (Instr.call 10).wf = false ∧ (Instr.jmp 8).wf = false ∧
      (Instr.jeq 16).wf = false := by decide

/-! ### Decoding, every constructor, the bits as 30_encoding.md R83 prints them -/

theorem test_decode_ldi : decode [0b10000010, 0b00000011, 0b11001000] = .ok (.ldi 3 200, []) := by rfl
theorem test_decode_prn : decode [0b01000111, 0b00000111] = .ok (.prn 7, []) := by rfl
theorem test_decode_hlt : decode [0b00000001, 0b00000001] = .ok (.hlt, [0b00000001]) := by rfl
theorem test_decode_mul : decode [0b10100010, 0b00000001, 0b00000010] = .ok (.mul 1 2, []) := by rfl
theorem test_decode_add : decode [0b10100000, 0b00000010, 0b00000001] = .ok (.add 2 1, []) := by rfl
theorem test_decode_cmp : decode [0b10100111, 0b00000110, 0b00000101] = .ok (.cmp 6 5, []) := by rfl
theorem test_decode_pop : decode [0b01000110, 0b00000010] = .ok (.pop 2, []) := by rfl
theorem test_decode_push : decode [0b01000101, 0b00000100] = .ok (.push 4, []) := by rfl
theorem test_decode_call : decode [0b01010000, 0b00000001] = .ok (.call 1, []) := by rfl
theorem test_decode_ret : decode [0b00010001] = .ok (.ret, []) := by rfl
theorem test_decode_jmp : decode [0b01010100, 0b00000011] = .ok (.jmp 3, []) := by rfl
theorem test_decode_jeq : decode [0b01010101, 0b00000101] = .ok (.jeq 5, []) := by rfl
theorem test_decode_jne : decode [0b01010110, 0b11111111] = .ok (.jne 255, []) := by rfl
theorem test_decode_illegal :
    decode [0x00] = .error (.illegalOpcode 0x00) ∧ decode [0x83, 0, 0] = .error (.illegalOpcode 0x83) ∧
      decode [0x82, 0] = .error .truncated ∧ decode [] = .error .truncated := ⟨rfl, rfl, rfl, rfl⟩

/-- 13 bytes decode, 243 do not (R85). -/
theorem test_dispatch_counts :
    ((List.range 256).filter fun n => (dispatch (BitVec.ofNat 8 n)).isSome).length = 13 := by decide

/-- The regularity R84 observes: bits 7:6 are the operand count, bit 5 marks the ALU rows, bit 4 the rows that write
the PC. -/
theorem test_opcode_regularity : ∀ b : Byte, ∀ o, dispatch b = some o →
    (b >>> 6).toNat = o.operands ∧ (b.getLsbD 5 = (aluSelect o).isSome) ∧
      b.getLsbD 4 = ([Opcode.call, .ret, .jmp, .jeq, .jne].contains o) := by
  intro b o h
  unfold dispatch at h
  split at h <;> cases h <;> decide

theorem test_table_words :
    decodeTableWord 24 0xC80382 = some (.ldi 3 200) ∧ decodeTableWord 16 0x0647 = some (.prn 6) ∧
      decodeTableWord 8 0x11 = some .ret ∧ decodeTableWord 8 0x82 = some (.ldi 0 0) ∧
      decodeTableWord 24 0x0201A7 = some (.cmp 1 2) ∧ decodeTableWord 8 0xFF = none := by decide

theorem test_fetch_word_runs_first :
    ends (step (State.reset.withFetchWord 24 0x080082)) (fun t => t.reg 0 == 8 && t.pc == 3) ∧
      ends (step (State.reset.withFetchWord 8 0x01)) (fun t => t.status == .halted) := by decide

/-! ### One step of each instruction -/

theorem test_ldi_V_D4 : ends (step (start 0 [0x82, 7, 0x80] [])) (fun t => t.sp == 0x80 && t.pc == 3) := by decide
theorem test_ldi_V_D8 : ends (step (start 253 [0x82, 0, 8] []))
    (fun t => faultedWith .outOfBounds 5 253 t && t.reg 0 == 0) := by decide
theorem test_prn_V_D11 : ends (step (start 0 [0x47, 0] [(0, 72)]))
    (fun t => t.out == [72] && t.pc == 2 && renderOutput t == [['7', '2']]) := by decide
theorem test_prn_V_D17 : ends (step (start 254 [0x47, 0] [(0, 9)]))
    (fun t => faultedWith .outOfBounds 5 254 t && t.out == []) := by decide
theorem test_hlt_V_D19 : ends (step (start 0x0B [0x01] []))
    (fun t => t.status == .halted && t.pc == 0x0B && t.cause == .none && exitCode t == some 0) := by decide
theorem test_hlt_V_D20 : ends (step (start 255 [0x01] [])) (fun t => t.status == .halted && t.pc == 255) := by decide
theorem test_mul_V_M4 : ends (step (start 0 [0xA2, 0, 1] [(0, 7), (1, 100)]))
    (fun t => t.reg 0 == 188 && t.reg 1 == 100 && t.pc == 3) := by decide
theorem test_mul_V_M11 : ends (step (start 0 [0xA2, 0, 0xFF] []))
    (faultedWith .registerIndexOutOfRange 255 0) := by decide
theorem test_add_V_A1 : ends (step (start 0 [0xA0, 0, 1] [(0, 250), (1, 10)]))
    (fun t => t.reg 0 == 4 && t.reg 1 == 10 && t.flagE == false) := by decide
theorem test_add_V_A12 : ends (step (start 0 [0xA0, 9, 10] [])) (faultedWith .registerIndexOutOfRange 9 0) := by decide
theorem test_cmp_V_C2 : ends (step ((start 0 [0xA7, 0, 1] [(0, 5), (1, 6)]).setFlag true))
    (fun t => t.flagE == false && t.pc == 3) := by decide
theorem test_cmp_V_C7 : ends (step (start 0 [0xA7, 0, 7] [(0, 0xF4)])) (fun t => t.flagE == true) := by decide
theorem test_pop_V_S4 : ends (step ((start 0 [0x46, 2] [(7, 0xF3)]).store 0xF3 6))
    (fun t => t.reg 2 == 6 && t.sp == 0xF4 && t.load 0xF3 == 6 && t.pc == 2) := by decide
theorem test_pop_V_S7 : ends (step ((start 0x10 [0x46, 7] []).store 0xF4 0x20))
    (fun t => t.sp == 0x21 && t.pc == 0x12) := by decide
theorem test_push_V_S2 : ends (step (start 0 [0x45, 0] [(0, 5), (7, 1)]))
    (fun t => t.sp == 0 && t.load 0 == 5 && t.pc == 2) := by decide
theorem test_push_V_S8 : ends (step (start 0x10 [0x45, 7] []))
    (fun t => t.sp == 0xF3 && t.load 0xF3 == 0xF3 && t.pc == 0x12) := by decide
theorem test_call_V_K1 : ends (step (start 6 [0x50, 1] [(1, 9)]))
    (fun t => t.sp == 0xF3 && t.load 0xF3 == 8 && t.pc == 9) := by decide
theorem test_call_V_K5 : ends (step (start 254 [0x50, 0] [(7, 0)])) (faultedWith .outOfBounds 4 254) := by decide
theorem test_ret_V_K8 : ends (step ((start 14 [0x11] [(7, 0xF3)]).store 0xF3 8))
    (fun t => t.pc == 8 && t.sp == 0xF4) := by decide
theorem test_ret_V_K11 : ends (step (start 0 [0x11] [(7, 255)])) (faultedWith .outOfBounds 3 0) := by decide
theorem test_jmp_V_J2b : ends (step (start 254 [0x54, 0] [])) (fun t => t.pc == 0 && t.status == .running) := by decide
theorem test_jmp_V_J2c : ends (step (start 255 [0x54] []))
    (fun t => faultedWith .outOfBounds 1 255 t && exitCode t == some 4) := by decide
theorem test_jeq_V_J7 : ends (step ((start 254 [0x55, 0] [(0, 4)]).setFlag true))
    (fun t => t.pc == 4 && t.flagE == true) := by decide
theorem test_jeq_V_J10 : ends (step (start 0 [0x55, 8] [])) (faultedWith .registerIndexOutOfRange 8 0) := by decide
theorem test_jne_V_J6 : ends (step ((start 0x14 [0x56, 3] [(3, 0x0C)]).setFlag true)) (fun t => t.pc == 0x16) := by
  decide
theorem test_jne_V_J9 : ends (step ((start 254 [0x56, 0] []).setFlag true)) (faultedWith .outOfBounds 5 254) := by
  decide
theorem test_illegal_V_X4 : ends (step (start 0 [0xA1, 0, 1] []))
    (fun t => faultedWith .illegalOpcode 0xA1 0 t && exitCode t == some 3) := by decide
theorem test_priority_V_X9 : ends (step (start 254 [0x82, 0xC8] [])) (faultedWith .outOfBounds 1 254) := by decide
theorem test_latches_keep : ends (step (start 254 [0x82, 0xC8] []))
    (fun t => t.ir == 0x82 && t.opa == 0xC8 && t.opb == 0) := by decide
theorem test_memory_canonical :
    (State.reset.store 5 1).mem = [(5, 1)] ∧ ((State.reset.store 5 1).store 3 2).mem = [(3, 2), (5, 1)] ∧
      ((State.reset.store 5 1).store 5 0).mem = [] := by decide

/-! ### The host's side -/

theorem test_text_V_L2 : programOfLines ["10000010 # LDI".toList] = .ok [0x82] := by rfl
theorem test_text_V_L3 :
    programOfLines (fileLines ['#', ' ', 'c', '\n', '\n', ' ', ' ', '\n', '0', '0', '0', '0', '0', '0', '0', '1']) =
      .ok [0x01] := by rfl
theorem test_text_V_L4_L5 :
    programOfLines [[' ', '0', '1', '0', '0', '0', '1', '1', '1', ' '], ['0', '0', '0', '0', '0', '0', '0', '0'],
      ['0', '0', '0', '0', '1', '0', '0', '0']] = .ok [0x47, 0x00, 0x08] := by rfl
theorem test_render_zero : renderValue 0 = ['0'] ∧ renderValue 255 = ['2', '5', '5'] := by decide
theorem test_program_not_found : launchFile none = .error .programNotFound := by rfl
theorem test_trace_taps : (traceSample (start 254 [0x47, 3] [])).bytes = [some 0x47, some 3, none] := by decide

/-! ### The executor -/

/-- What the executor reported, with the state it stands at. -/
def reported (o : Except LoadError RunEnd) : Option (String × State) :=
  match o with
  | .ok (.halted s) => some ("HALTED", s)
  | .ok (.faulted s) => some ("FAULTED", s)
  | .ok (.exhausted s) => some ("exhausted", s)
  | .error _ => none

/-- A HLT ends the run within a budget of 1 and not within 0 (R109). -/
theorem test_budget_is_no_end :
    (reported (runProgram 1 [0x01])).map Prod.fst = some "HALTED" ∧
      (reported (runProgram 0 [0x01])).map Prod.fst = some "exhausted" := by decide

/-- The empty image faults at once with IllegalOpcode(0x00) at 0 (R182). -/
theorem test_empty_image :
    (reported (runProgram 5 [])).map Prod.fst = some "FAULTED" ∧
      ((reported (runProgram 5 [])).map fun p => faultedWith .illegalOpcode 0 0 p.2) = some true := by decide

/-! ### Witnesses: for each statement with hypotheses, concrete values that meet them all -/

theorem witness_LdiLoadsTheImmediate : (start 252 [] []).pc.toNat ≤ 252 := by decide
theorem witness_PrnEmitsTheRegister : (start 253 [] []).pc.toNat ≤ 253 := by decide
theorem witness_AddWritesTheSumModulo256 :
    (start 252 [] [(1, 0)]).pc.toNat ≤ 252 ∧ (start 252 [] [(1, 0)]).reg 1 = 0 := by decide
theorem witness_MulWritesTheProductModulo256 :
    (start 252 [] [(1, 0), (2, 1)]).pc.toNat ≤ 252 ∧ (start 252 [] [(1, 0), (2, 1)]).reg 1 = 0 ∧
      (start 252 [] [(1, 0), (2, 1)]).reg 2 = 1 := by decide
theorem witness_CmpSetsTheFlagExactlyOnEquality : (start 252 [] []).pc.toNat ≤ 252 := by decide

/-- Operand 2 with SP 254, operand 7 with the byte on top 254. -/
theorem witness_PopLoadsTheTopAndIncrementsSp :
    ((start 253 [] [(7, 254)]).pc.toNat ≤ 253 ∧ (2 : RegIx) ≠ 7 ∧ ((start 253 [] [(7, 254)]).reg 7).toNat ≤ 254) ∧
      (((start 253 [] [(7, 9)]).store 9 254).load (((start 253 [] [(7, 9)]).store 9 254).reg 7)).toNat ≤ 254 := by
  decide
theorem witness_PushDecrementsSpAndStores :
    (start 253 [] [(7, 1)]).pc.toNat ≤ 253 ∧ 1 ≤ ((start 253 [] [(7, 1)]).reg 7).toNat := by decide
theorem witness_CallPushesTheReturnAddressAndJumps :
    (start 253 [] [(7, 1)]).pc.toNat ≤ 253 ∧ 1 ≤ ((start 253 [] [(7, 1)]).reg 7).toNat := by decide
theorem witness_RetPopsThePc : ((start 255 [] [(7, 254)]).reg 7).toNat ≤ 254 := by decide
theorem witness_JmpGoesToTheRegister : (start 254 [] []).pc.toNat ≤ 254 := by decide

/-- E set at 254, E clear at 253. -/
theorem witness_JeqJumpsExactlyWhenEIsSet :
    ((start 254 [] []).setFlag true).pc.toNat ≤ 254 ∧ ((start 254 [] []).setFlag true).flagE = true ∧
      (start 253 [] []).pc.toNat ≤ 253 ∧ (start 253 [] []).flagE = false := by decide

/-- E clear at 254, E set at 253. -/
theorem witness_JneJumpsExactlyWhenEIsClear :
    (start 254 [] []).pc.toNat ≤ 254 ∧ (start 254 [] []).flagE = false ∧
      ((start 253 [] []).setFlag true).pc.toNat ≤ 253 ∧ ((start 253 [] []).setFlag true).flagE = true := by decide

/-- Each kind of fault of the table, and a form that completes. -/
theorem witness_FaultsExactlyAsTabulated :
    faultTable (.ldi 0 1) (start 254 [] []) = some (.outOfBounds .operand) ∧
      faultTable (.cmp 0 8) (start 252 [] []) = some (.registerIndexOutOfRange 8) ∧
      faultTable (.mul 0 1) (start 253 [] []) = some (.outOfBounds .nextPc) ∧
      faultTable (.pop 7) ((start 0 [] []).store 0xF4 255) = some (.outOfBounds .spOverflow) ∧
      faultTable (.push 0) (start 254 [] [(7, 0)]) = some (.outOfBounds .spUnderflow) ∧
      faultTable (.call 0) (start 254 [] [(7, 0)]) = some (.outOfBounds .returnAddress) ∧
      faultTable (.jeq 7) (start 253 [] []) = none ∧ faultTable .hlt (start 255 [] []) = none := by decide
theorem witness_FirstFailingCheckIsReported :
    ((start 254 [] [(7, 0)]).pc = 254 ∧ (start 254 [] [(7, 0)]).reg 7 = 0) ∧ (start 253 [] []).pc.toNat ≤ 253 ∧
      (start 254 [0x82, 200] []).status = .running ∧ (start 254 [0x82, 200] []).pc = 254 ∧
      (start 254 [0x82, 200] []).load 254 = 0x82 ∧ (start 254 [0x82, 200] []).load 255 = 200 := by decide
theorem witness_IllegalOpcodeIsRaisedForEveryOtherByte :
    (start 255 [0x02] []).status = .running ∧ (start 255 [0x02] []).load (start 255 [0x02] []).pc ∉
      ([0x82, 0x47, 0x01, 0xA2, 0xA0, 0xA7, 0x46, 0x45, 0x50, 0x11, 0x54, 0x55, 0x56] : List Byte) := by decide
theorem witness_OperandBeyondMemoryIsRaised :
    (start 254 [0xA7, 1] []).status = .running ∧
      dispatch ((start 254 [0xA7, 1] []).load (start 254 [0xA7, 1] []).pc) = some .cmp ∧
      255 < (start 254 [0xA7, 1] []).pc.toNat + Opcode.cmp.operands := by decide

/-- A three-byte instruction at the last place it fits, and a one-byte one at 255. -/
theorem witness_StepRunsTheInstructionAtPc :
    ((start 253 [0x82, 1, 9] []).status = .running ∧ (start 253 [0x82, 1, 9] []).bytesAtPc (.ldi 1 9)) ∧
      (start 255 [0x11] []).status = .running ∧ (start 255 [0x11] []).bytesAtPc .ret := by
  refine ⟨⟨rfl, by decide, ?_⟩, rfl, by decide, ?_⟩ <;> intro k b h <;>
    fin_cases k <;> simp [encode, Instr.opcodeByte, Instr.operandBytes] at h <;> subst h <;> rfl
theorem witness_RunningCoreAlwaysSteps : State.reset.status = .running := by decide
theorem witness_StoppedCoreHasNoStep :
    State.reset.halt.status = .halted ∧ (raise (.illegalOpcode 0) State.reset).status = .faulted := by decide

/-- A step that halts, one that does not. -/
theorem witness_OnlyHltHalts :
    ends (step (start 0 [0x01] [])) (fun t => t.status == .halted) ∧
      ends (step (start 0 [0x82, 0, 1] [])) (fun t => t.status == .running) := by decide
theorem witness_FaultingStepHasNoOtherEffect : ends (step State.reset) (fun t => t.status == .faulted) := by decide
theorem witness_StepKeepsTheInvariant :
    (start 0 [0x45, 7] []).Inv ∧ ends (step (start 0 [0x45, 7] [])) (fun t => t.load 0xF3 == 0xF3) := by decide

/-- LDI of register 3: registers 4 (neither read nor written) and 3 (written, not read); and JEQ not taken. -/
theorem witness_RegisterUseIsAsTabulated :
    ends (exec (.ldi 3 1) State.reset) (fun t => t.status == .running) ∧ State.reset.status = .running ∧
      (4 : RegIx).val ∉ registersWritten (.ldi 3 1) ∧ (3 : RegIx).val ∈ registersWritten (.ldi 3 1) ∧
      (3 : RegIx).val ∉ registersRead (.ldi 3 1) State.reset ∧
      (5 : RegIx).val ∉ registersRead (.jeq 5) State.reset := by decide
theorem witness_FlagUseIsAsStated :
    ends (exec (.add 0 1) State.reset) (fun t => t.status == .running) ∧ (∀ a b, Instr.add 0 1 ≠ .cmp a b) ∧
      (∀ a, Instr.add 0 1 ≠ .jeq a ∧ Instr.add 0 1 ≠ .jne a) := by
  refine ⟨by decide, ?_, ?_⟩ <;> simp

/-- A load of a register (stores nothing), a push (stores at 0xF3), a push that faults at SP 0. -/
theorem witness_OnlyPushAndCallStore :
    (ends (exec (.ldi 0 1) State.reset) (fun t => t.status == .running) ∧
      ∀ a, Instr.ldi 0 1 ≠ .push a ∧ Instr.ldi 0 1 ≠ .call a) ∧
      (ends (exec (.push 0) State.reset) (fun t => t.status == .running) ∧ pushSlot State.reset = .ok 0xF3 ∧
        (0xF4 : Byte) ≠ 0xF3) ∧
      ends (exec (.push 0) (start 0 [] [(7, 0)])) (fun t => t.status == .faulted) ∧
      pushSlot (start 0 [] [(7, 0)]) = .error (.outOfBounds .spUnderflow) := by
  refine ⟨⟨by decide, ?_⟩, ⟨by decide, rfl, by decide⟩, by decide, rfl⟩
  simp
theorem witness_OnlyPrnEmitsAndNothingReadsTheStream :
    ends (step (start 0 [0x47, 7] [])) (fun t => t.out == [0xF4]) ∧ (start 0 [0x47, 7] []).load 0 = 0x47 ∧
      (start 0 [0x47, 7] []).load 1 = regByte 7 := by decide

/-- (a) at SP 1 and at the last place with room, (b) at SP 2, (c) a push that changes a cell. -/
theorem witness_StackIsLastInFirstOut :
    ((0 : RegIx) ≠ 7 ∧ (1 : RegIx) ≠ 7 ∧ 1 ≤ ((start 251 [] [(7, 1)]).reg 7).toNat ∧
      (start 251 [] [(7, 1)]).pc.toNat + 4 ≤ 255) ∧
      ((2 : RegIx) ≠ 7 ∧ (3 : RegIx) ≠ 7 ∧ (2 : RegIx) ≠ 3 ∧ 2 ≤ ((start 247 [] [(7, 2)]).reg 7).toNat ∧
        (start 247 [] [(7, 2)]).pc.toNat + 8 ≤ 255) ∧
      ends (exec (.push 0) (start 0 [] [(0, 5)])) (fun t => t.load 0xF3 != (start 0 [] [(0, 5)]).load 0xF3) := by
  decide
theorem witness_CallThenRetReturns :
    (start 253 [] [(7, 1)]).pc.toNat ≤ 253 ∧ 1 ≤ ((start 253 [] [(7, 1)]).reg 7).toNat ∧
      ends (exec (.call 0) (start 253 [] [(7, 1)]))
        (fun t => t.reg 7 == (0 : Byte) && t.load (t.reg 7) == 255) := by decide

/-- V-S13: SP 3, a PUSH at 0, the pushed byte is the next opcode. -/
theorem witness_PushedByteIsFetchedByTheNextStep :
    (start 0 [0x45, 0] [(7, 3)]).status = .running ∧ pushSlot (start 0 [0x45, 0] [(7, 3)]) = .ok 2 ∧
      (2 : Byte).toNat = (start 0 [0x45, 0] [(7, 3)]).pc.toNat + 2 := ⟨rfl, rfl, rfl⟩

/-- The explicit writes at 252, POP of register 7 and of register 0 at 253, RET, and a push at SP 1; the pointer written
in the last lets PUSH and CALL run, and POP and RET. -/
theorem witness_StackPointerIsRegisterSeven :
    (start 252 [] []).pc.toNat ≤ 252 ∧
      ((start 253 [] []).pc.toNat ≤ 253 ∧ (((start 253 [] []).store 0xF4 254).load 0xF4).toNat ≤ 254) ∧
      (((start 253 [] [(7, 254)]).reg 7).toNat ≤ 254 ∧ (0 : RegIx) ≠ 7) ∧
      (1 ≤ ((start 253 [] [(7, 1)]).reg 7).toNat) ∧
      ends (exec (.ldi 7 1) (start 250 [] []))
        (fun t => decide (t.pc.toNat ≤ 253 ∧ 1 ≤ (t.reg 7).toNat ∧ (t.reg 7).toNat ≤ 254)) := by decide

/-- The same two cells reached by writes in either order. -/
theorem witness_EqualMemoriesAreEqualData :
    Memory.wf (Memory.write (Memory.write [] 5 1) 3 2) ∧ Memory.wf (Memory.write (Memory.write [] 3 2) 5 1) ∧
      ∀ a, (Memory.write (Memory.write [] 5 1) 3 2).read a = (Memory.write (Memory.write [] 3 2) 5 1).read a := by
  decide
theorem witness_LoaderWritesTheImageFromAddressZero :
    256 < (List.replicate 257 (0 : Byte)).length ∧ (List.replicate 256 (1 : Byte)).length ≤ 256 := by
  rw [List.length_replicate, List.length_replicate]
  decide

/-- A literal with white space and a comment, a bare one, a comment line, a blank line. -/
theorem witness_ProgramTextGivesItsBytes :
    let lines : List TextLine := [⟨[' '], some 0x82, ['\t'], some ['L']⟩, ⟨[], some 0, [], none⟩,
      ⟨[], none, [], some ['c']⟩, ⟨[' '], none, [], none⟩]
    (∀ l ∈ lines, l.wf) ∧ ∀ l ∈ lines, '\n' ∉ l.chars := by decide
theorem witness_OutputIsRenderedInDecimal : 1 < (renderValue 10).length := by decide
theorem witness_ExitCodesAreAsTabulated :
    State.reset.status = .running ∧ State.reset.halt.status = .halted ∧
      (raise (.illegalOpcode 0) State.reset).cause = .illegalOpcode ∧
      (raise (.outOfBounds .operand) State.reset).cause = .outOfBounds ∧
      (raise .unsupportedALUOperation State.reset).cause = .unsupportedALUOperation ∧
      (raise (.registerIndexOutOfRange 8) State.reset).cause = .registerIndexOutOfRange ∧
      (raise (.illegalOpcode 0) State.reset).status = .faulted := by decide
theorem witness_DecodeIsTheInverseOfEncode :
    decode [0xA7, 0x09, 0xFF, 0x01] = .ok (.cmp 9 255, [0x01]) ∧ [0xA7, 0x09, 0xFF, 0x01] = encode (.cmp 9 255) ++ [0x01] :=
  ⟨rfl, rfl⟩

/-- A run that goes on and one that has ended. -/
theorem witness_RunIsTheSequenceOfSteps :
    (stateAfter 0 State.reset).status = .running ∧ (stateAfter 1 State.reset).status ≠ .running := by decide

/-- A run that ends HALTED with its first step, and one that ends FAULTED. -/
theorem witness_RunEndsByHltOrByFault :
    ((start 0 [0x01] []).status = .running ∧ EndsAfter (start 0 [0x01] []) 1) ∧
      State.reset.status = .running ∧ EndsAfter State.reset 1 := by decide

/-- Each of the three reports, and a report that a larger budget keeps. -/
theorem witness_ExhaustedBudgetIsNeitherEnd :
    runFor 0 State.reset = .exhausted State.reset ∧
      runFor 1 (start 0 [0x01] []) = .halted (stateAfter 1 (start 0 [0x01] [])) ∧
      runFor 1 State.reset = .faulted (stateAfter 1 State.reset) ∧
      runFor 1 State.reset ≠ .exhausted (stateAfter 1 State.reset) := by decide

/-- The jump at the last place it fits. -/
theorem witness_JumpToItselfNeverEnds :
    (start 254 [0x54, 2] [(2, 254)]).status = .running ∧
      (start 254 [0x54, 2] [(2, 254)]).bytesAtPc (.jmp (regByte 2)) ∧
      (start 254 [0x54, 2] [(2, 254)]).reg 2 = (start 254 [0x54, 2] [(2, 254)]).pc := by
  refine ⟨rfl, ⟨by decide, ?_⟩, rfl⟩
  intro k b h
  fin_cases k <;> simp [encode, Instr.opcodeByte, Instr.operandBytes] at h <;> subst h <;> rfl
theorem witness_ProgramRunsFromTheLaunchState :
    256 < (List.replicate 257 (0 : Byte)).length ∧ (List.replicate 256 (1 : Byte)).length ≤ 256 := by
  rw [List.length_replicate, List.length_replicate]
  decide

end Sys2Proof.Tests
end

/-! What `exec` answers, decided by the fault table (60_exceptions.md R178) and `Effect`: one lemma per instruction,
then the inversion and the forward run that every later proof cites. -/

namespace Sys2Proof.Machine

/-- The fault a chain of checks ends in, `none` where all of them pass. -/
def faultOf {α : Type} : Except Trap α → Option Trap
  | .ok _ => none
  | .error f => some f

theorem faultOf_eq_some {α : Type} {x : Except Trap α} {f : Trap} : faultOf x = some f ↔ x = .error f := by
  cases x <;> simp [faultOf]

/-- A check in front of a chain is a condition in front of the chain's table. -/
theorem faultOf_bind {α β : Type} {x : Except Trap α} {k : α → Except Trap β} {c : Bool} {f : Trap}
    {rest : List (Bool × Trap)} (hx : ∀ e, x = .error e ↔ e = f ∧ c = true)
    (hk : ∀ a, x = .ok a → faultOf (k a) = firstFault rest) :
    faultOf (x >>= k) = firstFault ((c, f) :: rest) := by
  cases x with
  | ok a =>
    have hc : c = false := Bool.eq_false_iff.2 fun hc => nomatch (hx f).2 ⟨rfl, hc⟩
    simp [firstFault, hc, hk a rfl]
  | error e =>
    obtain ⟨rfl, hc⟩ := (hx e).1 rfl
    simp [firstFault, hc, faultOf]

/-- `r` is the outcome of the checks of `i` on `s`: it passes exactly with the instruction's effect, and fails exactly
as the fault table has it. -/
structure ChecksOf (i : Instr) (s : State) (r : Except Trap State) : Prop where
  ok_iff : ∀ t, r = .ok t ↔ Effect i s t
  fault : faultOf r = faultTable i s

section
variable {α : Type} {s : State} {rest : List (Bool × Trap)}

/-- Phase O in front of a table: the operand condition, in whatever form `c` the table writes it. -/
theorem faultOf_operands {n : Nat} {k : Unit → Except Trap α} {c : Bool} (hc : c = true ↔ 255 < s.pc.toNat + n)
    (hk : s.pc.toNat + n ≤ 255 → faultOf (k ()) = firstFault rest) :
    faultOf (operandsInRange n s >>= k) = firstFault ((c, .outOfBounds .operand) :: rest) :=
  faultOf_bind (fun _ => by rw [operandsInRange_eq_error, hc]) fun _ h => hk (operandsInRange_eq_ok.1 h)

/-- Phase R in front of a table. -/
theorem faultOf_register {a : Byte} {k : RegIx → Except Trap α}
    (hk : ∀ r : RegIx, r.val = a.toNat → faultOf (k r) = firstFault rest) :
    faultOf (registerIndex a >>= k) = firstFault ((decide (7 < a.toNat), .registerIndexOutOfRange a) :: rest) :=
  faultOf_bind (fun _ => by rw [registerIndex_eq_error, decide_eq_true_iff]) fun _ h => hk _ (registerIndex_eq_ok.1 h)

/-- The next-PC check, the last of every table that has it. -/
theorem faultOf_nextPc {n : Nat} {k : Byte → α} {c : Bool} (hc : c = true ↔ 255 < s.pc.toNat + n) :
    faultOf (nextPc n s >>= fun p => pure (k p)) = firstFault [(c, .outOfBounds .nextPc)] :=
  faultOf_bind (fun _ => by rw [nextPc_eq_error, hc]) fun _ _ => rfl

theorem faultOf_oneRegister {a : Byte} {k : RegIx → Except Trap α} {c : Bool}
    (hc : c = true ↔ 255 < s.pc.toNat + 1)
    (hk : ∀ r : RegIx, s.pc.toNat + 1 ≤ 255 → r.val = a.toNat → faultOf (k r) = firstFault rest) :
    faultOf (oneRegister a s >>= k) = firstFault ((c, .outOfBounds .operand) ::
      (decide (7 < a.toNat), .registerIndexOutOfRange a) :: rest) := by
  rw [oneRegister, bind_assoc]
  exact faultOf_operands hc fun hp => faultOf_register fun r hr => hk r hp hr

theorem faultOf_registerAndImmediate {a : Byte} {k : RegIx → Except Trap α} {c : Bool}
    (hc : c = true ↔ 255 < s.pc.toNat + 2)
    (hk : ∀ r : RegIx, s.pc.toNat + 2 ≤ 255 → r.val = a.toNat → faultOf (k r) = firstFault rest) :
    faultOf (registerAndImmediate a s >>= k) = firstFault ((c, .outOfBounds .operand) ::
      (decide (7 < a.toNat), .registerIndexOutOfRange a) :: rest) := by
  rw [registerAndImmediate, bind_assoc]
  exact faultOf_operands hc fun hp => faultOf_register fun r hr => hk r hp hr

theorem faultOf_twoRegisters {a b : Byte} {k : RegIx × RegIx → Except Trap α} {c : Bool}
    (hc : c = true ↔ 255 < s.pc.toNat + 2)
    (hk : ∀ p, s.pc.toNat + 2 ≤ 255 → faultOf (k p) = firstFault rest) :
    faultOf (twoRegisters a b s >>= k) = firstFault ((c, .outOfBounds .operand) ::
      (decide (7 < a.toNat), .registerIndexOutOfRange a) ::
      (decide (7 < b.toNat), .registerIndexOutOfRange b) :: rest) := by
  simp only [twoRegisters, bind_assoc, except_pure, except_bind_ok]
  exact faultOf_operands hc fun hp => faultOf_register fun _ _ => faultOf_register fun _ _ => hk _ hp

end

/-- The two readings of "the operand is register 7": of the index and of the operand byte. -/
theorem eq_spIndex_iff {a : Byte} {r : RegIx} (h : r.val = a.toNat) : r = Config.spIndex ↔ a = 7 := by
  rw [Fin.ext_iff, h, ← BitVec.toNat_inj]
  rfl

/-! ### Each instruction is one attempt of its checks -/

section
variable (s : State)

theorem exec_ldi_checks (a imm : Byte) : ∃ r, exec (.ldi a imm) s = attempt s r ∧ ChecksOf (.ldi a imm) s r := by
  refine ⟨_, rfl, fun t => ?_, faultOf_registerAndImmediate (by simp; omega) fun _ hp _ =>
    faultOf_nextPc (by simp; omega)⟩
  simp only [except_bind_eq_ok, registerAndImmediate_eq_ok, nextPc_eq_ok, except_pure, Except.ok.injEq, Effect]
  constructor
  · rintro ⟨ra, ⟨-, hr⟩, p, hp, rfl⟩
    exact ⟨ra, p, hr, hp, rfl⟩
  · rintro ⟨ra, p, hr, hp, rfl⟩
    exact ⟨ra, ⟨by omega, hr⟩, p, hp, rfl⟩

theorem exec_prn_checks (a : Byte) : ∃ r, exec (.prn a) s = attempt s r ∧ ChecksOf (.prn a) s r := by
  refine ⟨_, rfl, fun t => ?_, faultOf_oneRegister (by simp; omega) fun _ hp _ => faultOf_nextPc (by simp; omega)⟩
  simp only [except_bind_eq_ok, oneRegister_eq_ok, nextPc_eq_ok, except_pure, Except.ok.injEq, Effect]
  constructor
  · rintro ⟨ra, ⟨-, hr⟩, p, hp, rfl⟩
    exact ⟨ra, p, hr, hp, rfl⟩
  · rintro ⟨ra, p, hr, hp, rfl⟩
    exact ⟨ra, ⟨by omega, hr⟩, p, hp, rfl⟩

theorem exec_hlt_checks : ∃ r, exec .hlt s = attempt s r ∧ ChecksOf .hlt s r :=
  ⟨.ok s.halt, rfl, fun t => by simp [Effect, eq_comm], rfl⟩

/-- The three ALU instructions at once. -/
theorem aluInstr_checks (op : AluOp) (a b : Byte) : ∃ r, aluInstr op a b s = attempt s r ∧
    (∀ t, r = .ok t ↔ ∃ (ra rb : RegIx) (p : Byte), ra.val = a.toNat ∧ rb.val = b.toNat ∧
      p.toNat = s.pc.toNat + 3 ∧ t = (aluWrite op ra rb s).setPc p) ∧
    faultOf r = faultTable (.add a b) s := by
  refine ⟨_, rfl, fun t => ?_, faultOf_twoRegisters (by simp; omega) fun _ hp => faultOf_nextPc (by simp; omega)⟩
  simp only [except_bind_eq_ok, twoRegisters_eq_ok, nextPc_eq_ok, except_pure, Except.ok.injEq]
  constructor
  · rintro ⟨⟨ra, rb⟩, ⟨-, hr, hq⟩, p, hp, rfl⟩
    exact ⟨ra, rb, p, hr, hq, hp, rfl⟩
  · rintro ⟨ra, rb, p, hr, hq, hp, rfl⟩
    exact ⟨(ra, rb), ⟨by omega, hr, hq⟩, p, hp, rfl⟩

theorem exec_pop_checks (a : Byte) : ∃ r, exec (.pop a) s = attempt s r ∧ ChecksOf (.pop a) s r := by
  refine ⟨_, rfl, fun t => ?_, faultOf_oneRegister (by simp; omega) fun ra hp hr =>
    faultOf_bind (fun _ => ?_) fun _ _ => faultOf_nextPc (by simp; omega)⟩
  · simp only [except_bind_eq_ok, oneRegister_eq_ok, popIncrement_eq_ok, nextPc_eq_ok, except_pure,
      Except.ok.injEq, Effect]
    constructor
    · rintro ⟨ra, ⟨-, hr⟩, n, hn, p, hp, rfl⟩
      exact ⟨ra, p, n, hr, hp, hn, rfl⟩
    · rintro ⟨ra, p, n, hr, hp, hn, rfl⟩
      exact ⟨ra, ⟨by omega, hr⟩, n, hn, p, hp, rfl⟩
  · simp only [popIncrement_eq_error, decide_eq_true_iff, eq_spIndex_iff hr]
    split_ifs <;> rfl

theorem exec_push_checks (a : Byte) : ∃ r, exec (.push a) s = attempt s r ∧ ChecksOf (.push a) s r := by
  refine ⟨_, rfl, fun t => ?_, faultOf_oneRegister (by simp; omega) fun ra hp hr =>
    faultOf_bind (fun _ => ?_) fun _ _ => faultOf_nextPc (by simp; omega)⟩
  · simp only [except_bind_eq_ok, oneRegister_eq_ok, nextPc_eq_ok, except_pure, Except.ok.injEq, Effect]
    constructor
    · rintro ⟨ra, ⟨-, hr⟩, n, hn, p, hp, rfl⟩
      exact ⟨ra, p, n, hr, hp, hn, rfl⟩
    · rintro ⟨ra, p, n, hr, hp, hn, rfl⟩
      exact ⟨ra, ⟨by omega, hr⟩, n, hn, p, hp, rfl⟩
  · rw [pushSlot_eq_error, decide_eq_true_iff]; rfl

theorem exec_call_checks (a : Byte) : ∃ r, exec (.call a) s = attempt s r ∧ ChecksOf (.call a) s r := by
  refine ⟨_, rfl, fun t => ?_, faultOf_oneRegister (by simp; omega) fun ra hp hr =>
    faultOf_bind (fun _ => ?_) fun _ _ => faultOf_bind (fun _ => ?_) fun _ _ => rfl⟩
  · simp only [except_bind_eq_ok, oneRegister_eq_ok, returnAddress_eq_ok, except_pure, Except.ok.injEq, Effect]
    constructor
    · rintro ⟨ra, ⟨-, hr⟩, back, hb, n, hn, rfl⟩
      exact ⟨ra, back, n, hr, hb, hn, rfl⟩
    · rintro ⟨ra, back, n, hr, hb, hn, rfl⟩
      exact ⟨ra, ⟨by omega, hr⟩, back, hb, n, hn, rfl⟩
  · rw [returnAddress_eq_error, decide_eq_true_iff]
    exact and_congr_right fun _ => by omega
  · rw [pushSlot_eq_error, decide_eq_true_iff]; rfl

theorem exec_ret_checks : ∃ r, exec .ret s = attempt s r ∧ ChecksOf .ret s r := by
  refine ⟨_, rfl, fun t => ?_, faultOf_bind (fun _ => ?_) fun _ _ => rfl⟩
  · simp only [except_bind_eq_ok, popIncrement_eq_ok, except_pure, Except.ok.injEq, Effect, eq_comm (b := t)]
  · rw [popIncrement_eq_error, decide_eq_true_iff]; rfl

theorem exec_jmp_checks (a : Byte) : ∃ r, exec (.jmp a) s = attempt s r ∧ ChecksOf (.jmp a) s r := by
  refine ⟨_, rfl, fun t => ?_, faultOf_oneRegister (by simp; omega) fun _ _ _ => rfl⟩
  simp only [except_bind_eq_ok, oneRegister_eq_ok, except_pure, Except.ok.injEq, Effect]
  constructor
  · rintro ⟨ra, ⟨hp, hr⟩, rfl⟩
    exact ⟨ra, hr, hp, rfl⟩
  · rintro ⟨ra, hr, hp, rfl⟩
    exact ⟨ra, ⟨hp, hr⟩, rfl⟩

theorem branchTarget_eq_ok {taken : Bool} {ra : RegIx} {p : Byte} :
    branchTarget taken ra s = .ok p ↔ if taken then p = s.reg ra else p.toNat = s.pc.toNat + 2 := by
  cases taken
  · exact nextPc_eq_ok
  · simp [branchTarget, eq_comm]

/-- JEQ and JNE at once: the next PC is checked where the jump is not taken. -/
theorem branch_checks (taken : Bool) (a : Byte) : ∃ r, branch taken a s = attempt s r ∧
    (∀ t, r = .ok t ↔ ∃ (ra : RegIx) (p : Byte), ra.val = a.toNat ∧ s.pc.toNat + 1 ≤ 255 ∧
      (if taken then p = s.reg ra else p.toNat = s.pc.toNat + 2) ∧ t = s.setPc p) ∧
    faultOf r = firstFault [(decide (s.pc.toNat = 255), .outOfBounds .operand),
      (decide (7 < a.toNat), .registerIndexOutOfRange a),
      (!taken && decide (s.pc.toNat = 254), .outOfBounds .nextPc)] := by
  refine ⟨_, rfl, fun t => ?_, faultOf_oneRegister (by simp; omega) fun ra hp _ =>
    faultOf_bind (fun _ => ?_) fun _ _ => rfl⟩
  · simp only [except_bind_eq_ok, oneRegister_eq_ok, branchTarget_eq_ok, except_pure, Except.ok.injEq]
    constructor
    · rintro ⟨ra, ⟨hp, hr⟩, p, ht, rfl⟩
      exact ⟨ra, p, hr, hp, ht, rfl⟩
    · rintro ⟨ra, p, hr, hp, ht, rfl⟩
      exact ⟨ra, ⟨hp, hr⟩, p, ht, rfl⟩
  · cases taken
    · simp [branchTarget, nextPc_eq_error]; omega
    · simp [branchTarget]

end

/-- Every instruction is one attempt of its checks. -/
theorem exec_checks (i : Instr) (s : State) : ∃ r, exec i s = attempt s r ∧ ChecksOf i s r := by
  cases i with
  | ldi a imm => exact exec_ldi_checks s a imm
  | prn a => exact exec_prn_checks s a
  | hlt => exact exec_hlt_checks s
  | mul a b => exact (aluInstr_checks s .mul a b).imp fun _ ⟨he, hok, hf⟩ => ⟨he, hok, hf⟩
  | add a b => exact (aluInstr_checks s .add a b).imp fun _ ⟨he, hok, hf⟩ => ⟨he, hok, hf⟩
  | cmp a b => exact (aluInstr_checks s .cmp a b).imp fun _ ⟨he, hok, hf⟩ => ⟨he, hok, hf⟩
  | pop a => exact exec_pop_checks s a
  | push a => exact exec_push_checks s a
  | call a => exact exec_call_checks s a
  | ret => exact exec_ret_checks s
  | jmp a => exact exec_jmp_checks s a
  | jeq a => exact (branch_checks s (jumpsIfEqual s) a).imp fun _ ⟨he, hok, hf⟩ => ⟨he, hok, hf⟩
  | jne a =>
    obtain ⟨r, he, hok, hf⟩ := branch_checks s (jumpsIfNotEqual s) a
    refine ⟨r, he, fun t => (hok t).trans ?_, hf.trans ?_⟩ <;>
      cases hE : s.flagE <;> simp [Effect, faultTable, jumpsIfNotEqual, hE]

section
variable {i : Instr} {s t : State}

/-- Where the table names a fault, that fault is taken. -/
theorem exec_of_faultTable {f : Trap} (h : faultTable i s = some f) : exec i s = .next (raise f s) := by
  obtain ⟨r, he, hr⟩ := exec_checks i s
  rw [he, faultOf_eq_some.1 (hr.fault.trans h), attempt_error]

/-- An effect whose guards hold is what the instruction does. -/
theorem exec_of_effect (h : Effect i s t) : exec i s = .next t := by
  obtain ⟨r, he, hr⟩ := exec_checks i s
  rw [he, (hr.ok_iff t).2 h, attempt_ok]

/-- `exec_cases` with the fault named: it is the one the table gives. -/
theorem exec_inversion (h : exec i s = .next t) :
    (∃ f, faultTable i s = some f ∧ t = raise f s) ∨ Effect i s t := by
  obtain ⟨r, he, hr⟩ := exec_checks i s
  rcases attempt_eq_next (he ▸ h) with hok | ⟨f, hf, rfl⟩
  · exact .inr ((hr.ok_iff t).1 hok)
  · exact .inl ⟨f, hr.fault ▸ faultOf_eq_some.2 hf, rfl⟩

end

end Sys2Proof.Machine

/-! What an instruction's effect leaves unchanged, and the fetched instruction against the bytes it was read from. -/

namespace Sys2Proof.Machine

/-! ### The frame of an effect -/

/-- A register outside a list of register numbers is not the register at its head. -/
theorem regIx_ne_of_notMem {n : Nat} {l : List Nat} {r q : RegIx} (hq : q.val = n) (hr : r.val ∉ n :: l) : r ≠ q :=
  fun e => hr (by rw [e, hq]; exact List.mem_cons_self)

theorem State.setReg_reg_of_ne {s : State} {v : Byte} {q r : RegIx} (h : r ≠ q) : (s.setReg q v).reg r = s.reg r := by
  rw [State.setReg_reg, if_neg h.symm]

/-- The frame of an instruction's effect: what each field of the state after can be. -/
structure EffectFrame (i : Instr) (s t : State) : Prop where
  cause : t.cause = s.cause
  info : t.info = s.info
  status : t.status = if i = .hlt then .halted else s.status
  reg : ∀ r : RegIx, r.val ∉ registersWritten i → t.reg r = s.reg r
  flagE : (∀ a b, i ≠ .cmp a b) → t.flagE = s.flagE
  mem : t.mem = s.mem ∨
    ∃ a n v, (i = .push a ∨ i = .call a) ∧ pushSlot s = .ok n ∧ t.mem = s.mem.write n v

theorem effect_frame {i : Instr} {s t : State} (h : Effect i s t) : EffectFrame i s t := by
  cases i with
  | ldi a imm =>
    obtain ⟨ra, p, ha, -, rfl⟩ := h
    exact ⟨rfl, rfl, rfl, fun _ hw => State.setReg_reg_of_ne (regIx_ne_of_notMem ha hw), fun _ => rfl,
      .inl rfl⟩
  | prn a =>
    obtain ⟨ra, p, -, -, rfl⟩ := h
    exact ⟨rfl, rfl, rfl, fun _ _ => rfl, fun _ => rfl, .inl rfl⟩
  | hlt =>
    cases h
    exact ⟨rfl, rfl, rfl, fun _ _ => rfl, fun _ => rfl, .inl rfl⟩
  | mul a b | add a b =>
    obtain ⟨ra, rb, p, ha, -, -, rfl⟩ := h
    exact ⟨rfl, rfl, rfl, fun _ hw => State.setReg_reg_of_ne (regIx_ne_of_notMem ha hw), fun _ => rfl,
      .inl rfl⟩
  | cmp a b =>
    obtain ⟨ra, rb, p, -, -, -, rfl⟩ := h
    exact ⟨rfl, rfl, rfl, fun _ _ => rfl, fun hi => absurd rfl (hi a b), .inl rfl⟩
  | pop a =>
    obtain ⟨ra, p, n, ha, -, -, rfl⟩ := h
    refine ⟨rfl, rfl, rfl, fun r hw => ?_, fun _ => rfl, .inl rfl⟩
    have h7 : r ≠ Config.spIndex := regIx_ne_of_notMem rfl (List.not_mem_of_not_mem_cons hw)
    exact (State.setReg_reg_of_ne h7).trans (State.setReg_reg_of_ne (regIx_ne_of_notMem ha hw))
  | push a =>
    obtain ⟨ra, p, n, -, -, hn, rfl⟩ := h
    exact ⟨rfl, rfl, rfl, fun _ hw => State.setReg_reg_of_ne (regIx_ne_of_notMem rfl hw), fun _ => rfl,
      .inr ⟨a, n, _, .inl rfl, hn, rfl⟩⟩
  | call a =>
    obtain ⟨ra, back, n, -, -, hn, rfl⟩ := h
    exact ⟨rfl, rfl, rfl, fun _ hw => State.setReg_reg_of_ne (regIx_ne_of_notMem rfl hw), fun _ => rfl,
      .inr ⟨a, n, _, .inr rfl, hn, rfl⟩⟩
  | ret =>
    obtain ⟨n, -, rfl⟩ := h
    exact ⟨rfl, rfl, rfl, fun _ hw => State.setReg_reg_of_ne (regIx_ne_of_notMem rfl hw), fun _ => rfl,
      .inl rfl⟩
  | jmp a =>
    obtain ⟨ra, -, -, rfl⟩ := h
    exact ⟨rfl, rfl, rfl, fun _ _ => rfl, fun _ => rfl, .inl rfl⟩
  | jeq a | jne a =>
    obtain ⟨ra, p, -, -, -, rfl⟩ := h
    exact ⟨rfl, rfl, rfl, fun _ _ => rfl, fun _ => rfl, .inl rfl⟩

/-! ### The fetched instruction and its bytes -/

theorem Opcode.instr_opcodeByte (o : Opcode) (a b : Byte) : (o.instr a b).opcodeByte = (o.instr 0 0).opcodeByte := by
  cases o <;> rfl

theorem Opcode.instr_operandBytes (o : Opcode) (a b : Byte) : (o.instr a b).operandBytes = [a, b].take o.operands := by
  cases o <;> rfl

theorem dispatch_eq_some {b : Byte} {o : Opcode} (h : dispatch b = some o) : b = (o.instr 0 0).opcodeByte := by
  unfold dispatch at h
  split at h <;> cases h <;> rfl

theorem Opcode.readOperands_eq_ok {o : Opcode} {bs rest : List Byte} {i : Instr}
    (h : o.readOperands bs = .ok (i, rest)) :
    i.opcodeByte = (o.instr 0 0).opcodeByte ∧ bs = i.operandBytes ++ rest := by
  unfold Opcode.readOperands at h
  split at h <;> cases h <;>
    exact ⟨Opcode.instr_opcodeByte .., by rw [Opcode.instr_operandBytes, ‹o.operands = _›]; rfl⟩

/-- What the decoder accepts is the encoding of what it answers (R91). -/
theorem decode_eq_ok {bs rest : List Byte} {i : Instr} (h : decode bs = .ok (i, rest)) : bs = encode i ++ rest := by
  cases bs with
  | nil => cases h
  | cons b bs =>
    simp only [decode] at h
    split at h
    · cases h
    next o ho =>
      obtain ⟨hop, rfl⟩ := Opcode.readOperands_eq_ok h
      rw [dispatch_eq_some ho, ← hop]
      rfl

/-- The fetched instruction's bytes are the first of those at the PC. -/
theorem fetchInstr_eq_ok {s : State} {i : Instr} (h : fetchInstr s = .ok i) :
    ∃ rest, fetchWindow s = encode i ++ rest := by
  unfold fetchInstr at h
  split at h
  · cases h
    exact ⟨_, decode_eq_ok ‹_›⟩
  · cases h

/-- The opcode byte of the fetched instruction is at the PC. -/
theorem fetchInstr_opcodeByte {s : State} {i : Instr} (h : fetchInstr s = .ok i) : s.load s.pc = i.opcodeByte := by
  obtain ⟨rest, h⟩ := fetchInstr_eq_ok h
  exact List.head_eq_of_cons_eq h

/-- The first operand byte of the fetched instruction, where it has one, is at the next address, which exists. -/
theorem fetchInstr_opa {s : State} {i : Instr} {a : Byte} {bs : List Byte} (h : fetchInstr s = .ok i)
    (hi : i.operandBytes = a :: bs) : s.load (s.pc + 1) = a := by
  obtain ⟨rest, h⟩ := fetchInstr_eq_ok h
  have htail : (byteAfter s 1).toList ++ (byteAfter s 2).toList = a :: (bs ++ rest) := by
    rw [← List.cons_append, ← hi]
    exact List.tail_eq_of_cons_eq h
  by_cases hpc : s.pc.toNat + 1 > 255
  · simp [byteAfter, hpc, show s.pc.toNat + 2 > 255 by omega] at htail
  · have haddr : trunc8 (s.pc.toNat + 1) = s.pc + 1 := by
      apply BitVec.eq_of_toNat_eq
      simp [trunc8]
    rw [byteAfter, if_neg hpc, haddr] at htail
    exact List.head_eq_of_cons_eq htail

/-- HLT has no operand byte, so its opcode byte alone is fetched as HLT (R89, R122). -/
theorem fetchInstr_hlt {s : State} (h : s.load s.pc = 0x01) : fetchInstr s = .ok .hlt := by
  simp only [fetchInstr, fetchWindow, h]
  rfl

theorem Instr.opcodeByte_eq_hlt {i : Instr} : i.opcodeByte = 0x01 ↔ i = .hlt := by
  cases i <;> simp [Instr.opcodeByte]

end Sys2Proof.Machine

/-! The invariant of 10_state.md R38, reset, and the one way into HALTED. -/

namespace Sys2Proof.Machine

/-- Taking a raisable fault gives a state that meets the invariant, whatever status and cause were before. -/
theorem raise_inv {f : Trap} {s : State} (hm : s.mem.wf) (hf : f.raisable) : (raise f s).Inv := by
  refine ⟨hm, ?_, ?_⟩
  · cases f <;> simp [Trap.cause]
  · cases f with
    | illegalOpcode b => exact decide_eq_true hf
    | outOfBounds k => cases k <;> rfl
    | unsupportedALUOperation => exact hf.elim
    | registerIndexOutOfRange b => exact decide_eq_true hf

/-- An effect keeps the canonical form: it writes one cell at most. -/
theorem effect_mem_wf {i : Instr} {s t : State} (h : Effect i s t) (hm : s.mem.wf) : t.mem.wf := by
  obtain he | ⟨a, n, v, -, -, he⟩ := (effect_frame h).mem
  · rwa [he]
  · rw [he]
    exact Memory.write_wf hm n v

/-- Cause and info stay as they are and no effect ends in FAULTED, so a RUNNING core keeps the invariant. -/
theorem effect_inv {i : Instr} {s t : State} (hs : s.status = .running) (hi : s.Inv) (h : Effect i s t) : t.Inv := by
  obtain ⟨hm, hc, hinfo⟩ := hi
  have hfr := effect_frame h
  refine ⟨effect_mem_wf h hm, ?_, ?_⟩
  · rw [hfr.cause, hc, hfr.status, hs]
    split_ifs <;> simp
  · rwa [State.infoMatchesCause, hfr.cause, hfr.info]

/-- The fetch touches nothing the invariant speaks of. -/
theorem loadLatches_inv {s : State} (hi : s.Inv) : (loadLatches s).Inv := by
  obtain ⟨ir, opa, opb, h⟩ := loadLatches_frame s
  rw [h]
  exact hi

/-- Settles O27: a step is a raisable fault, or an effect on a RUNNING core. -/
theorem stepKeepsTheInvariant : Obligations.StepKeepsTheInvariant := by
  intro s t hi h
  have hl := loadLatches_inv hi
  obtain ⟨hs, ⟨f, hf, -, rfl⟩ | ⟨i, -, h⟩⟩ := step_cases h
  · exact raise_inv hl.1 hf
  · rcases exec_cases h with ⟨f, hf, rfl⟩ | he
    · exact raise_inv hl.1 hf
    · exact effect_inv ((loadLatches_status s).trans hs) hl he

/-- Settles O28: the empty memory is canonical, and a RUNNING core holds no cause. -/
theorem resetMeetsTheInvariant : Obligations.ResetMeetsTheInvariant :=
  ⟨State.reset_mem_wf, by decide, rfl⟩

/-- Settles O29: each listed value is read off the reset state. -/
theorem resetLeavesTheListedValues : Obligations.ResetLeavesTheListedValues := by
  have hgpr : ∀ r : RegIx, r ≠ 7 → State.reset.reg r = 0 := by decide
  exact fun _ => ⟨rfl, rfl, hgpr, rfl, rfl, rfl, rfl, rfl, rfl, rfl, rfl, fun _ => rfl, rfl⟩

/-- HLT's row of the fault table is empty, so executing it halts; every other instruction ends RUNNING or FAULTED. -/
theorem exec_halts_iff {i : Instr} {s t : State} (hs : s.status = .running) (h : exec i s = .next t) :
    t.status = .halted ↔ i = .hlt := by
  rcases exec_inversion h with ⟨f, hf, rfl⟩ | he
  · have hi : i ≠ .hlt := by
      rintro rfl
      cases hf
    simp [hi]
  · rw [(effect_frame he).status, hs]
    split_ifs <;> simp [*]

/-- Settles O25: the fetched instruction is HLT exactly when the byte at the PC is its opcode, which no fault of the
fetch can have. -/
theorem onlyHltHalts : Obligations.OnlyHltHalts := by
  intro s t h
  obtain ⟨hs, ⟨f, -, hf, rfl⟩ | ⟨i, hi, h⟩⟩ := step_cases h
  · have hb : s.load s.pc ≠ 0x01 := fun hb => by
      rw [fetchInstr_hlt hb] at hf
      cases hf
    simp only [raise_status, reduceCtorEq, false_iff]
    exact hb
  · rw [exec_halts_iff ((loadLatches_status s).trans hs) h, fetchInstr_opcodeByte hi, Instr.opcodeByte_eq_hlt]

end Sys2Proof.Machine

/-! Another value in a register that an instruction does not read (10_state.md R22). -/

namespace Sys2Proof.Machine

section
variable {i : Instr} {s t : State} {r : RegIx} {v : Byte}

theorem State.setReg_sp_of_ne (h : r ≠ Config.spIndex) : (s.setReg r v).sp = s.sp :=
  State.setReg_reg_of_ne h.symm

theorem pushSlot_setReg (h : r ≠ Config.spIndex) : pushSlot (s.setReg r v) = pushSlot s := by
  simp only [pushSlot, State.setReg_sp_of_ne h]

theorem State.setReg_setSp_comm {n : Byte} (h : r ≠ Config.spIndex) :
    (s.setReg r v).setSp n = (s.setSp n).setReg r v :=
  State.setReg_comm _ _ _ h

/-- The fault conditions look at no register but those read. -/
theorem faultTable_setReg (hr : r.val ∉ registersRead i s) : faultTable i (s.setReg r v) = faultTable i s := by
  have hsp : r ≠ 7 → (s.setReg r v).reg 7 = s.reg 7 := State.setReg_sp_of_ne
  cases i with
  | pop a | push a | call a =>
    simp only [faultTable]
    rw [hsp (regIx_ne_of_notMem rfl hr)]
    rfl
  | ret =>
    simp only [faultTable]
    rw [hsp (regIx_ne_of_notMem rfl hr)]
  | _ => rfl

/-- A register neither read nor written keeps the other value through an effect. -/
theorem effect_setReg_of_unwritten (h : Effect i s t) (hr : r.val ∉ registersRead i s)
    (hw : r.val ∉ registersWritten i) : Effect i (s.setReg r v) (t.setReg r v) := by
  cases i with
  | ldi a imm =>
    obtain ⟨ra, p, ha, hp, rfl⟩ := h
    exact ⟨ra, p, ha, hp, by rw [State.setReg_comm _ _ _ (regIx_ne_of_notMem ha hw)]; rfl⟩
  | prn a =>
    obtain ⟨ra, p, ha, hp, rfl⟩ := h
    exact ⟨ra, p, ha, hp, by rw [State.setReg_reg_of_ne (regIx_ne_of_notMem ha hr).symm]; rfl⟩
  | hlt =>
    cases h
    rfl
  | mul a b | add a b =>
    obtain ⟨ra, rb, p, ha, hb, hp, rfl⟩ := h
    refine ⟨ra, rb, p, ha, hb, hp, ?_⟩
    rw [State.setReg_comm _ _ _ (regIx_ne_of_notMem ha hw),
      State.setReg_reg_of_ne (regIx_ne_of_notMem ha hr).symm,
      State.setReg_reg_of_ne (regIx_ne_of_notMem hb (List.not_mem_of_not_mem_cons hr)).symm]
    rfl
  | cmp a b =>
    obtain ⟨ra, rb, p, ha, hb, hp, rfl⟩ := h
    refine ⟨ra, rb, p, ha, hb, hp, ?_⟩
    rw [State.setReg_reg_of_ne (regIx_ne_of_notMem ha hr).symm,
      State.setReg_reg_of_ne (regIx_ne_of_notMem hb (List.not_mem_of_not_mem_cons hr)).symm]
    rfl
  | pop a =>
    obtain ⟨ra, p, n, ha, hp, hn, rfl⟩ := h
    have h7 : r ≠ Config.spIndex := regIx_ne_of_notMem rfl hr
    have hsp : (s.setReg r v).sp = s.sp := State.setReg_sp_of_ne h7
    refine ⟨ra, p, n, ha, hp, by rwa [hsp], ?_⟩
    rw [State.setReg_comm _ _ _ (regIx_ne_of_notMem ha hw), State.setReg_setSp_comm h7, hsp]
    rfl
  | push a =>
    obtain ⟨ra, p, n, ha, hp, hn, rfl⟩ := h
    have h7 : r ≠ Config.spIndex := regIx_ne_of_notMem rfl hr
    refine ⟨ra, p, n, ha, hp, by rwa [pushSlot_setReg h7], ?_⟩
    rw [State.setReg_setSp_comm h7,
      State.setReg_reg_of_ne (regIx_ne_of_notMem ha (List.not_mem_of_not_mem_cons hr)).symm]
    rfl
  | call a =>
    obtain ⟨ra, back, n, ha, hb, hn, rfl⟩ := h
    have h7 : r ≠ Config.spIndex := regIx_ne_of_notMem rfl hr
    refine ⟨ra, back, n, ha, hb, by rwa [pushSlot_setReg h7], ?_⟩
    rw [State.setReg_setSp_comm h7,
      State.setReg_reg_of_ne (regIx_ne_of_notMem ha (List.not_mem_of_not_mem_cons hr)).symm]
    rfl
  | ret =>
    obtain ⟨n, hn, rfl⟩ := h
    have h7 : r ≠ Config.spIndex := regIx_ne_of_notMem rfl hr
    refine ⟨n, by rwa [State.setReg_sp_of_ne h7], ?_⟩
    rw [State.setReg_setSp_comm h7, State.setReg_sp_of_ne h7]
    rfl
  | jmp a =>
    obtain ⟨ra, ha, hp, rfl⟩ := h
    exact ⟨ra, ha, hp, by rw [State.setReg_reg_of_ne (regIx_ne_of_notMem ha hr).symm]; rfl⟩
  | jeq a =>
    obtain ⟨ra, p, ha, hp, ht, rfl⟩ := h
    refine ⟨ra, p, ha, hp, ?_, rfl⟩
    simp only [registersRead] at hr
    rw [State.setReg_flagE]
    split_ifs at hr ht ⊢
    · rwa [State.setReg_reg_of_ne (regIx_ne_of_notMem ha hr).symm]
    · exact ht
  | jne a =>
    obtain ⟨ra, p, ha, hp, ht, rfl⟩ := h
    refine ⟨ra, p, ha, hp, ?_, rfl⟩
    simp only [registersRead] at hr
    rw [State.setReg_flagE]
    split_ifs at hr ht ⊢
    · exact ht
    · rwa [State.setReg_reg_of_ne (regIx_ne_of_notMem ha hr).symm]

/-- Only LDI and POP write a register without reading it, and what they write hides the other value. -/
theorem effect_setReg_of_written (h : Effect i s t) (hr : r.val ∉ registersRead i s)
    (hw : r.val ∈ registersWritten i) : Effect i (s.setReg r v) t := by
  cases i with
  | ldi a imm =>
    obtain ⟨ra, p, ha, hp, rfl⟩ := h
    obtain rfl : r = ra := Fin.ext ((List.mem_singleton.1 hw).trans ha.symm)
    exact ⟨r, p, ha, hp, by rw [State.setReg_setReg]⟩
  | pop a =>
    obtain ⟨ra, p, n, ha, hp, hn, rfl⟩ := h
    have hsp : (s.setReg r v).sp = s.sp := State.setReg_sp_of_ne (regIx_ne_of_notMem rfl hr)
    obtain rfl : r = ra := by
      rcases List.mem_cons.1 hw with hw | hw
      · exact Fin.ext (hw.trans ha.symm)
      · exact absurd hw hr
    exact ⟨r, p, n, ha, hp, by rwa [hsp], by rw [State.setReg_setReg, hsp]; rfl⟩
  | mul a b | add a b => exact absurd (List.mem_cons.2 (.inl (List.mem_singleton.1 hw))) hr
  | push a | call a => exact absurd (List.mem_cons.2 (.inl (List.mem_singleton.1 hw))) hr
  | ret => exact absurd hw hr
  | _ => cases hw

end

/-- Settles O30: the fault table and the effect both look at no register but those read. -/
theorem registerUseIsAsTabulated : Obligations.RegisterUseIsAsTabulated := by
  intro i s t h
  rcases exec_inversion h with ⟨f, hf, rfl⟩ | he
  · refine ⟨fun _ _ => rfl, fun _ r v hr => ?_⟩
    rw [exec_of_faultTable ((faultTable_setReg hr).trans hf), if_pos (.inl rfl)]
    rfl
  · have hfr := effect_frame he
    refine ⟨hfr.reg, fun hs r v hr => exec_of_effect ?_⟩
    have ht : t.status ≠ .faulted := by
      rw [hfr.status, hs]
      split_ifs <;> simp
    by_cases hw : r.val ∈ registersWritten i
    · rw [if_neg (by tauto)]
      exact effect_setReg_of_written he hr hw
    · rw [if_pos (.inr hw)]
      exact effect_setReg_of_unwritten he hr hw

end Sys2Proof.Machine

/-! E, the memory and the output stream: which instructions write them, and which read them (10_state.md R26, R32,
R34). -/

namespace Sys2Proof.Machine

/-! ### The flag -/

section
variable {i : Instr} {s t : State} (hi : ∀ a, i ≠ .jeq a ∧ i ≠ .jne a)
include hi

/-- The fault conditions of every instruction but JEQ and JNE do not look at E. -/
theorem faultTable_setFlag (c : Bool) : faultTable i (s.setFlag c) = faultTable i s := by
  cases i with
  | jeq a => exact absurd rfl (hi a).1
  | jne a => exact absurd rfl (hi a).2
  | _ => rfl

/-- With another E before, CMP ends the same and every other instruction but JEQ and JNE keeps that E. -/
theorem effect_setFlag (h : Effect i s t) (c : Bool) :
    Effect i (s.setFlag c) t ∨ Effect i (s.setFlag c) (t.setFlag c) := by
  cases i with
  | cmp a b =>
    obtain ⟨ra, rb, p, ha, hb, hp, rfl⟩ := h
    exact .inl ⟨ra, rb, p, ha, hb, hp, rfl⟩
  | ldi a imm | prn a =>
    obtain ⟨ra, p, ha, hp, rfl⟩ := h
    exact .inr ⟨ra, p, ha, hp, rfl⟩
  | hlt =>
    cases h
    exact .inr rfl
  | mul a b | add a b =>
    obtain ⟨ra, rb, p, ha, hb, hp, rfl⟩ := h
    exact .inr ⟨ra, rb, p, ha, hb, hp, rfl⟩
  | pop a | push a | call a =>
    obtain ⟨ra, x, n, ha, hx, hn, rfl⟩ := h
    exact .inr ⟨ra, x, n, ha, hx, hn, rfl⟩
  | ret =>
    obtain ⟨n, hn, rfl⟩ := h
    exact .inr ⟨n, hn, rfl⟩
  | jmp a =>
    obtain ⟨ra, ha, hp, rfl⟩ := h
    exact .inr ⟨ra, ha, hp, rfl⟩
  | jeq a => exact absurd rfl (hi a).1
  | jne a => exact absurd rfl (hi a).2

end

/-- Settles O31: a fault leaves E, and but for JEQ and JNE neither the fault conditions nor the effect look at it. -/
theorem flagUseIsAsStated : Obligations.FlagUseIsAsStated := by
  intro i s t h
  rcases exec_inversion h with ⟨f, hf, rfl⟩ | he
  · exact ⟨fun _ => rfl, fun hi c => .inr (exec_of_faultTable ((faultTable_setFlag hi c).trans hf))⟩
  · exact ⟨(effect_frame he).flagE, fun hi c => (effect_setFlag hi he c).imp exec_of_effect exec_of_effect⟩

/-! ### The memory -/

/-- Settles O32: a fault changes no cell, and an effect at most the cell `pushSlot` gives. -/
theorem onlyPushAndCallStore : Obligations.OnlyPushAndCallStore := by
  intro i s t h
  have hsame {u : State} (hu : u.mem = s.mem) : SameMemory s u := fun b => congrArg (Memory.read · b) hu
  rcases exec_inversion h with ⟨f, -, rfl⟩ | he
  · exact ⟨fun _ => hsame rfl, fun _ _ b _ => hsame rfl b, fun _ _ => hsame rfl⟩
  · obtain hm | ⟨a, n, v, hi, hn, hm⟩ := (effect_frame he).mem
    · exact ⟨fun _ => hsame hm, fun _ _ b _ => hsame hm b, fun _ _ => hsame hm⟩
    · refine ⟨fun hne => (hi.elim (hne a).1 (hne a).2).elim, fun slot hslot b hb => ?_, fun f hf => ?_⟩
      · obtain rfl : n = slot := Except.ok.inj (hn.symm.trans hslot)
        rw [State.load, hm, Memory.read_write, if_neg hb]
        rfl
      · cases hn.symm.trans hf

/-! ### The output stream -/

/-- The state with another output stream before. -/
def State.withOut (s : State) (o : List Byte) : State := { s with out := o }

section
variable {i : Instr} {s t : State} (o : List Byte)

theorem faultTable_withOut : faultTable i (s.withOut o) = faultTable i s := by
  cases i <;> rfl

theorem loadOpa_withOut : loadOpa (s.withOut o) = (loadOpa s).withOut o := by
  unfold loadOpa
  rw [show byteAfter (s.withOut o) 1 = byteAfter s 1 from rfl, show (s.withOut o).ir = s.ir from rfl]
  cases byteAfter s 1 with
  | none => rfl
  | some b => dsimp only; split_ifs <;> rfl

theorem loadOpb_withOut : loadOpb (s.withOut o) = (loadOpb s).withOut o := by
  unfold loadOpb
  rw [show byteAfter (s.withOut o) 2 = byteAfter s 2 from rfl, show (s.withOut o).ir = s.ir from rfl]
  cases byteAfter s 2 with
  | none => rfl
  | some b => dsimp only; split_ifs <;> rfl

theorem loadLatches_withOut : loadLatches (s.withOut o) = (loadLatches s).withOut o := by
  rw [loadLatches, loadLatches, ← loadOpb_withOut, ← loadOpa_withOut]
  rfl

/-- Every instruction but PRN leaves the stream, and does the same whatever the stream before. -/
theorem effect_withOut (hi : ∀ a, i ≠ .prn a) (h : Effect i s t) :
    t.out = s.out ∧ ∀ o, Effect i (s.withOut o) (t.withOut o) := by
  cases i with
  | prn a => exact absurd rfl (hi a)
  | ldi a imm =>
    obtain ⟨ra, p, ha, hp, rfl⟩ := h
    exact ⟨rfl, fun o => ⟨ra, p, ha, hp, rfl⟩⟩
  | hlt =>
    cases h
    exact ⟨rfl, fun o => rfl⟩
  | mul a b | add a b | cmp a b =>
    obtain ⟨ra, rb, p, ha, hb, hp, rfl⟩ := h
    exact ⟨rfl, fun o => ⟨ra, rb, p, ha, hb, hp, rfl⟩⟩
  | pop a | push a | call a =>
    obtain ⟨ra, x, n, ha, hx, hn, rfl⟩ := h
    exact ⟨rfl, fun o => ⟨ra, x, n, ha, hx, hn, rfl⟩⟩
  | ret =>
    obtain ⟨n, hn, rfl⟩ := h
    exact ⟨rfl, fun o => ⟨n, hn, rfl⟩⟩
  | jmp a =>
    obtain ⟨ra, ha, hp, rfl⟩ := h
    exact ⟨rfl, fun o => ⟨ra, ha, hp, rfl⟩⟩
  | jeq a | jne a =>
    obtain ⟨ra, p, ha, hp, ht, rfl⟩ := h
    exact ⟨rfl, fun o => ⟨ra, p, ha, hp, ht, rfl⟩⟩

/-- What an instruction appends to the stream: nothing, or the register PRN names; whatever the stream before. -/
theorem exec_out (h : exec i s = .next t) : ∃ new : List Byte, t.out = s.out ++ new ∧
    (new = [] ∨ ∃ r : RegIx, i = .prn (regByte r) ∧ new = [s.reg r]) ∧
    ∀ o, exec i (s.withOut o) = .next (t.withOut (o ++ new)) := by
  rcases exec_inversion h with ⟨f, hf, rfl⟩ | he
  · refine ⟨[], (List.append_nil _).symm, .inl rfl, fun o => ?_⟩
    rw [exec_of_faultTable ((faultTable_withOut o).trans hf), List.append_nil]
    rfl
  · by_cases hi : ∃ a, i = .prn a
    · obtain ⟨a, rfl⟩ := hi
      obtain ⟨r, p, ha, hp, rfl⟩ := he
      have ha' : a = regByte r := BitVec.eq_of_toNat_eq (by rw [regByte_toNat, ha])
      exact ⟨[s.reg r], rfl, .inr ⟨r, congrArg Instr.prn ha', rfl⟩, fun o => exec_of_effect ⟨r, p, ha, hp, rfl⟩⟩
    · obtain ⟨hout, hany⟩ := effect_withOut (not_exists.1 hi) he
      refine ⟨[], by rw [hout, List.append_nil], .inl rfl, fun o => ?_⟩
      rw [List.append_nil]
      exact exec_of_effect (hany o)

end

/-- Settles O33: a fault of the fetch emits nothing, and the fetched instruction appends what `exec_out` says. -/
theorem onlyPrnEmitsAndNothingReadsTheStream : Obligations.OnlyPrnEmitsAndNothingReadsTheStream := by
  intro s t h
  have hfetch (o : List Byte) : fetchInstr (s.withOut o) = fetchInstr s := rfl
  have hrun (o : List Byte) : step (s.withOut o) = _ := step_running (s := s.withOut o) (step_cases h).1
  obtain ⟨hs, ⟨f, -, hf, rfl⟩ | ⟨i, hi, h⟩⟩ := step_cases h
  · refine ⟨[], ?_, .inl rfl, fun o => ?_⟩
    · rw [List.append_nil, raise_out, loadLatches_out]
    · rw [List.append_nil]
      exact (hrun o).trans (by rw [hfetch, hf, loadLatches_withOut]; rfl)
  · obtain ⟨new, hout, hnew, hany⟩ := exec_out h
    refine ⟨new, by rwa [loadLatches_out] at hout, hnew.imp_right ?_, fun o => ?_⟩
    · rintro ⟨r, rfl, rfl⟩
      exact ⟨r, fetchInstr_opcodeByte hi, fetchInstr_opa hi rfl, by rw [loadLatches_reg]⟩
    · exact (hrun o).trans (by rw [hfetch, hi, loadLatches_withOut]; exact hany o)

end Sys2Proof.Machine

/-! Register 7 and the stack pointer are the same 8 bits (10_state.md R21). -/

namespace Sys2Proof.Machine

section
variable {t : State}

/-! ### The stack instructions run forward, by where they leave the stack pointer -/

theorem exec_push_moves_down (r : RegIx) (hpc : t.pc.toNat ≤ 253) (hsp : 1 ≤ (t.reg 7).toNat) :
    ∃ p n, n.toNat + 1 = (t.reg 7).toNat ∧ exec (.push (regByte r)) t =
      .next (((t.setSp n).store n (if r = 7 then n else t.reg r)).setPc p) := by
  obtain ⟨p, -, hp⟩ := nextPc_le (s := t) (n := 2) (by omega)
  obtain ⟨n, hn, hv⟩ := pushSlot_pos hsp
  exact ⟨p, n, hv, exec_of_effect ⟨r, p, n, (regByte_toNat r).symm, hp, hn, rfl⟩⟩

theorem exec_call_moves_down (r : RegIx) (hpc : t.pc.toNat ≤ 253) (hsp : 1 ≤ (t.reg 7).toNat) :
    ∃ back n, back.toNat = t.pc.toNat + 2 ∧ n.toNat + 1 = (t.reg 7).toNat ∧ exec (.call (regByte r)) t =
      .next (((t.setSp n).store n back).setPc (if r = 7 then n else t.reg r)) := by
  obtain ⟨back, -, hb⟩ := returnAddress_le (s := t) (by omega)
  obtain ⟨n, hn, hv⟩ := pushSlot_pos hsp
  exact ⟨back, n, hb, hv, exec_of_effect ⟨r, back, n, (regByte_toNat r).symm, hb, hn, rfl⟩⟩

theorem exec_pop_moves_up (r : RegIx) (hpc : t.pc.toNat ≤ 253)
    (hv : (if r = 7 then t.load (t.reg 7) else t.reg 7).toNat ≤ 254) :
    ∃ p n, n.toNat = (if r = 7 then t.load (t.reg 7) else t.reg 7).toNat + 1 ∧
      exec (.pop (regByte r)) t = .next (((t.setReg r (t.load (t.reg 7))).setSp n).setPc p) := by
  obtain ⟨p, -, hp⟩ := nextPc_le (s := t) (n := 2) (by omega)
  obtain ⟨n, -, hn⟩ := popIncrement_le hv
  exact ⟨p, n, hn, exec_of_effect ⟨r, p, n, (regByte_toNat r).symm, hp, hn, rfl⟩⟩

theorem exec_ret_moves_up (hsp : (t.reg 7).toNat ≤ 254) :
    ∃ n, n.toNat = (t.reg 7).toNat + 1 ∧ exec .ret t = .next ((t.setSp n).setPc (t.load (t.reg 7))) := by
  obtain ⟨n, -, hn⟩ := popIncrement_le hsp
  exact ⟨n, hn, exec_of_effect ⟨n, hn, rfl⟩⟩

/-- Whatever register 7 holds is the stack pointer of every stack instruction. -/
theorem stackPointerIs_reg (t : State) : StackPointerIs (t.reg 7) t where
  reg := rfl
  push r hr hpc hv := by
    obtain ⟨p, n, hn, he⟩ := exec_push_moves_down r hpc hv
    exact ⟨_, he, by simpa using hn, by simp [hr], fun b hb => by simp_all⟩
  call r hr hpc hv := by
    obtain ⟨back, n, hb, hn, he⟩ := exec_call_moves_down r hpc hv
    exact ⟨_, he, by simpa using hn, by simp [hb], fun b hb => by simp_all⟩
  pop r hr hpc hv := by
    obtain ⟨p, n, hn, he⟩ := exec_pop_moves_up r hpc (by rwa [if_neg hr])
    rw [if_neg hr] at hn
    exact ⟨_, he, by simp [hr.symm], by simpa using hn⟩
  ret hv := by
    obtain ⟨n, hn, he⟩ := exec_ret_moves_up hv
    exact ⟨_, he, rfl, by simpa using hn⟩

end

/-- An instruction that leaves `v` in register 7 leaves `v` as the stack pointer. -/
theorem stackPointerIs_of_exec {i : Instr} {s t : State} {v : Byte} (h : exec i s = .next t) (hv : t.reg 7 = v) :
    ∃ t, exec i s = .next t ∧ StackPointerIs v t :=
  ⟨t, h, hv ▸ stackPointerIs_reg t⟩

theorem eq_add_one_of_toNat {n v : Byte} (h : n.toNat = v.toNat + 1) : n = v + 1 :=
  BitVec.eq_of_toNat_eq (by have := n.isLt; simp; omega)

theorem eq_sub_one_of_toNat {n v : Byte} (h : n.toNat + 1 = v.toNat) : n = v - 1 := by
  rw [eq_add_one_of_toNat h.symm, BitVec.add_sub_cancel]

/-- Settles O37: each writer of register 7 by what it leaves there. -/
theorem stackPointerIsRegisterSeven : Obligations.StackPointerIsRegisterSeven := by
  intro s
  have h7 : (7 : RegIx).val = (7 : Byte).toNat := rfl
  refine ⟨fun hpc v => ?_, fun hpc b => ?_, fun hpc b => ?_, fun hpc hv => ?_, fun hpc hv r hr => ?_, fun hv => ?_,
    fun hpc hv r => ⟨?_, ?_⟩⟩
  · obtain ⟨p, -, hp⟩ := nextPc_le (s := s) (n := 3) (by omega)
    exact stackPointerIs_of_exec (exec_of_effect ⟨7, p, h7, hp, rfl⟩) (by simp)
  · obtain ⟨p, -, hp⟩ := nextPc_le (s := s) (n := 3) (by omega)
    exact stackPointerIs_of_exec (exec_of_effect ⟨7, b, p, h7, (regByte_toNat b).symm, hp, rfl⟩) (by simp [aluSum_eq])
  · obtain ⟨p, -, hp⟩ := nextPc_le (s := s) (n := 3) (by omega)
    exact stackPointerIs_of_exec (exec_of_effect ⟨7, b, p, h7, (regByte_toNat b).symm, hp, rfl⟩)
      (by simp [aluProduct_eq])
  · obtain ⟨p, n, hn, he⟩ := exec_pop_moves_up (7 : RegIx) hpc hv
    exact stackPointerIs_of_exec he (by simpa using eq_add_one_of_toNat hn)
  · obtain ⟨p, n, hn, he⟩ := exec_pop_moves_up r hpc (by rwa [if_neg hr])
    rw [if_neg hr] at hn
    exact stackPointerIs_of_exec he (by simpa using eq_add_one_of_toNat hn)
  · obtain ⟨n, hn, he⟩ := exec_ret_moves_up hv
    exact stackPointerIs_of_exec he (by simpa using eq_add_one_of_toNat hn)
  · obtain ⟨p, n, hn, he⟩ := exec_push_moves_down r hpc hv
    exact stackPointerIs_of_exec he (by simpa using eq_sub_one_of_toNat hn)
  · obtain ⟨back, n, -, hn, he⟩ := exec_call_moves_down r hpc hv
    exact stackPointerIs_of_exec he (by simpa using eq_sub_one_of_toNat hn)

end Sys2Proof.Machine

/-! A byte that PUSH stores where the PC goes next is the next step's opcode byte (20_memory.md R62,
70_reset_and_hazards.md R192). -/

namespace Sys2Proof.Machine

/-- No effect writes the instruction register: `ir` is the fetch's alone (10_state.md R27). -/
theorem effect_ir {i : Instr} {s t : State} (h : Effect i s t) : t.ir = s.ir := by
  cases i with
  | ldi a imm | prn a =>
    obtain ⟨ra, p, -, -, rfl⟩ := h
    rfl
  | hlt =>
    cases h
    rfl
  | mul a b | add a b | cmp a b =>
    obtain ⟨ra, rb, p, -, -, -, rfl⟩ := h
    rfl
  | pop a | push a | call a =>
    obtain ⟨ra, x, n, -, -, -, rfl⟩ := h
    rfl
  | ret =>
    obtain ⟨n, -, rfl⟩ := h
    rfl
  | jmp a =>
    obtain ⟨ra, -, -, rfl⟩ := h
    rfl
  | jeq a | jne a =>
    obtain ⟨ra, p, -, -, -, rfl⟩ := h
    rfl

/-- A step, faulting or not, leaves in `ir` the byte that stood at the PC (R101). -/
theorem step_ir {s t : State} (h : step s = .next t) : t.ir = s.load s.pc := by
  obtain ⟨-, ⟨f, -, -, rfl⟩ | ⟨i, -, h⟩⟩ := step_cases h
  · rw [raise_ir, loadLatches_ir]
  · rcases exec_cases h with ⟨f, -, rfl⟩ | he
    · rw [raise_ir, loadLatches_ir]
    · rw [effect_ir he, loadLatches_ir]

/-- Settles O36: the address after the PUSH exists, since it is the slot, so the PUSH completes there; what the next
step loads into `ir` is the byte in that slot. -/
theorem pushedByteIsFetchedByTheNextStep : Obligations.PushedByteIsFetchedByTheNextStep := by
  intro s r slot hs hslot hpc
  obtain ⟨t, hpush, hrun, hcell⟩ : ∃ t, exec (.push (regByte r)) s = .next t ∧ t.status = .running ∧
      t.load t.pc = if r = 7 then slot else s.reg r :=
    ⟨_, exec_of_effect ⟨r, slot, slot, (regByte_toNat r).symm, hpc, hslot, rfl⟩, hs, by simp⟩
  have hstep := step_eq_stateAfter_one hrun
  exact ⟨t, _, hpush, hstep, (step_ir hstep).trans hcell⟩

end Sys2Proof.Machine

/-! A canonical memory lists exactly the cells that do not read as the fill, in the order of their addresses: so its
readings determine it (20_memory.md R50, 10_state.md R32). -/

namespace Sys2Proof.Machine

/-- A listed cell reads as its content: the addresses rise strictly, so no earlier cell has its address. -/
theorem Memory.read_of_mem {m : Memory} (hm : (m.map Prod.fst).Pairwise (· < ·)) {a v : Byte}
    (h : (a.toNat, v) ∈ m) : m.read a = v := by
  induction m with
  | nil => cases h
  | cons c m ih =>
    rw [List.map_cons, List.pairwise_cons] at hm
    obtain ⟨hfirst, hrest⟩ := hm
    rw [Memory.read_cons]
    rcases List.mem_cons.1 h with rfl | h
    · rw [if_pos rfl]
    · have hlt : c.1 < a.toNat := hfirst _ (List.mem_map_of_mem h)
      rw [if_neg hlt.ne, ih hrest h]

/-- An address that does not read as the fill is listed, with what it reads as. -/
theorem Memory.mem_of_read_ne_fill {m : Memory} {a : Byte} (h : m.read a ≠ Config.memFill) :
    (a.toNat, m.read a) ∈ m := by
  induction m with
  | nil => exact absurd (Memory.read_nil a) h
  | cons c m ih =>
    rw [Memory.read_cons] at h ⊢
    split_ifs at h ⊢ with hc
    · exact List.mem_cons.2 (.inl (by rw [← hc]))
    · exact List.mem_cons_of_mem _ (ih h)

/-- Every cell of a canonical memory is listed in any memory that reads the same. -/
theorem Memory.subset_of_read_eq {m m' : Memory} (hm : m.wf) (h : ∀ a, m.read a = m'.read a) : m ⊆ m' := by
  rintro ⟨k, v⟩ hc
  obtain ⟨hk, hv⟩ := hm.2 _ hc
  obtain ⟨a, rfl⟩ : ∃ a : Byte, a.toNat = k := ⟨trunc8 k, trunc8_toNat (Nat.le_of_lt_succ hk)⟩
  have hread : m'.read a = v := (h a).symm.trans (Memory.read_of_mem hm.1 hc)
  rw [← hread]
  exact Memory.mem_of_read_ne_fill (hread ▸ hv)

/-- Settles O38: each memory's cells are among the other's, and both list them by rising address. -/
theorem equalMemoriesAreEqualData : Obligations.EqualMemoriesAreEqualData := by
  intro m m' hm hm' h
  have sorted {l : Memory} (hl : l.wf) : List.Pairwise (Prod.fst ⁻¹'o (· < ·)) l :=
    (List.pairwise_map (f := Prod.fst)).1 hl.1
  exact List.Subset.antisymm_of_pairwise (sorted hm) (sorted hm')
    (Memory.subset_of_read_eq hm h) (Memory.subset_of_read_eq hm' fun a => (h a).symm)

end Sys2Proof.Machine

/-! The decoder against the encoder (30_encoding.md R80, R83, R91). -/

namespace Sys2Proof.Machine

/-! ### The opcode byte -/

theorem dispatch_instr_opcodeByte (o : Opcode) (a b : Byte) : dispatch (o.instr a b).opcodeByte = some o := by
  cases o <;> rfl

/-- The dispatch selects a row on the row's own opcode byte and on no other (R81). -/
theorem dispatch_eq_some_iff {b : Byte} {o : Opcode} : dispatch b = some o ↔ b = (o.instr 0 0).opcodeByte :=
  ⟨dispatch_eq_some, fun h => h ▸ dispatch_instr_opcodeByte o 0 0⟩

/-- Settles O20: the 13 values written out are the opcode bytes of the rows' instructions. -/
theorem opcodeByteIsMatchedWhole : Obligations.OpcodeByteIsMatchedWhole := by
  intro b o
  rw [dispatch_eq_some_iff]
  cases o <;> rfl

/-! ### The whole instruction -/

/-- The row, the operand count and the operands of every instruction. -/
theorem encodedShape (i : Instr) : Laws.EncodedShape.Statement i := by
  cases i with
  | ldi => exact Laws.EncodedShape.ldi ..
  | prn => exact Laws.EncodedShape.prn ..
  | hlt => exact Laws.EncodedShape.hlt
  | mul => exact Laws.EncodedShape.mul ..
  | add => exact Laws.EncodedShape.add ..
  | cmp => exact Laws.EncodedShape.cmp ..
  | pop => exact Laws.EncodedShape.pop ..
  | push => exact Laws.EncodedShape.push ..
  | call => exact Laws.EncodedShape.call ..
  | ret => exact Laws.EncodedShape.ret
  | jmp => exact Laws.EncodedShape.jmp ..
  | jeq => exact Laws.EncodedShape.jeq ..
  | jne => exact Laws.EncodedShape.jne ..

theorem Opcode.operands_le_two (o : Opcode) : o.operands ≤ 2 := by
  cases o <;> decide

/-- A row takes as many bytes as it has operands and leaves the others. -/
theorem Opcode.readOperands_append {o : Opcode} {bs : List Byte} (h : o.operands = bs.length) (rest : List Byte) :
    o.readOperands (bs ++ rest) = .ok (o.instr (bs.getD 0 0) (bs.getD 1 0), rest) := by
  unfold Opcode.readOperands
  rw [h]
  match bs with
  | [] | [_] | [_, _] => rfl
  | _ :: _ :: _ :: _ =>
    have hle := Opcode.operands_le_two o
    simp only [h, List.length_cons] at hle
    omega

/-- An encoding decodes to its instruction, whatever bytes follow. -/
theorem decode_encode (i : Instr) (rest : List Byte) : decode (encode i ++ rest) = .ok (i, rest) := by
  obtain ⟨o, hdispatch, -, hcount, hinstr⟩ := encodedShape i
  calc decode (encode i ++ rest)
      = o.readOperands (i.operandBytes ++ rest) := by simp only [encode, List.cons_append, decode, hdispatch]
    _ = .ok (i, rest) := by rw [Opcode.readOperands_append hcount, hinstr]

/-- Settles O19: accepted bytes are the encoding of the answer (`decode_eq_ok`), and every encoding is accepted. -/
theorem decodeIsTheInverseOfEncode : Obligations.DecodeIsTheInverseOfEncode :=
  fun _ i rest => ⟨decode_eq_ok, fun h => h ▸ decode_encode i rest⟩

/-- Settles O21 by running the decoder on each word. -/
theorem knownWordsDecode : Obligations.KnownWordsDecode :=
  ⟨rfl, rfl, rfl, rfl, rfl, rfl, rfl, rfl⟩

end Sys2Proof.Machine

/-! One step, from the bytes at the PC to the state after it (40_fetch_decode_execute.md R100 to R108). -/

namespace Sys2Proof.Machine

/-! ### What a step can leave -/

/-- The fetch loads latches and leaves the architecture (R100). -/
theorem sameArchitecture_loadLatches (s : State) : SameArchitecture s (loadLatches s) :=
  ⟨fun r _ => loadLatches_reg s r, loadLatches_pc s, loadLatches_flagE s, loadLatches_load s, loadLatches_out s⟩

/-- A fault taken after the fetch leaves the architecture as it was before the step (R108, R166). -/
theorem sameArchitecture_raise_loadLatches (f : Trap) (s : State) : SameArchitecture s (raise f (loadLatches s)) :=
  sameArchitecture_loadLatches s

theorem SameArchitecture.trans {s t u : State} (h : SameArchitecture s t) (h' : SameArchitecture t u) :
    SameArchitecture s u := by
  obtain ⟨hr, hpc, he, hm, ho⟩ := h
  obtain ⟨hr', hpc', he', hm', ho'⟩ := h'
  exact ⟨fun r hn => (hr' r hn).trans (hr r hn), hpc'.trans hpc, he'.trans he, fun a => (hm' a).trans (hm a),
    ho'.trans ho⟩

/-- `step_cases` and `exec_cases` in one: a step is a raisable fault taken after the fetch, whichever phase raises it, or
the effect of the fetched instruction. -/
theorem step_raises_or_effect {s t : State} (h : step s = .next t) :
    (∃ f : Trap, f.raisable ∧ t = raise f (loadLatches s)) ∨
      ∃ i, fetchInstr s = .ok i ∧ Effect i (loadLatches s) t := by
  obtain ⟨-, ⟨f, hf, -, rfl⟩ | ⟨i, hi, he⟩⟩ := step_cases h
  · exact .inl ⟨f, hf, rfl⟩
  · exact (exec_cases he).imp_right fun he => ⟨i, hi, he⟩

/-- The run status a completed instruction of a step leaves. -/
theorem effect_loadLatches_status {i : Instr} {s t : State} (hs : s.status = .running)
    (h : Effect i (loadLatches s) t) : t.status = if i = .hlt then .halted else .running := by
  rw [(effect_frame h).status, loadLatches_status, hs]

/-- Settles O26: no effect leaves FAULTED, so the step took a fault after the fetch. -/
theorem faultingStepHasNoOtherEffect : Obligations.FaultingStepHasNoOtherEffect := by
  intro s t h ht
  refine ⟨?_, step_ir h⟩
  rcases step_raises_or_effect h with ⟨f, -, rfl⟩ | ⟨i, -, he⟩
  · exact sameArchitecture_raise_loadLatches f s
  · rw [effect_loadLatches_status (step_cases h).1 he] at ht
    split_ifs at ht

/-- Settles O24: `stopped` names the stop of each status. -/
theorem stoppedCoreHasNoStep : Obligations.StoppedCoreHasNoStep := by
  intro s
  constructor <;> intro hs <;> simp only [step, stopped, hs]

/-! ### Operand bytes beyond address 255 -/

theorem byteAfter_toList_length (s : State) (k : Nat) :
    (byteAfter s k).toList.length = if 255 < s.pc.toNat + k then 0 else 1 := by
  unfold byteAfter
  split_ifs <;> rfl

/-- A row asks for more bytes than are left (R89). -/
theorem Opcode.readOperands_truncated {o : Opcode} {bs : List Byte} (h : bs.length < o.operands) :
    o.readOperands bs = .error .truncated := by
  unfold Opcode.readOperands
  split <;> simp_all

/-- The fetch of a row one of whose operand addresses does not exist (R104). -/
theorem fetchInstr_operand_beyond {s : State} {o : Opcode} (ho : dispatch (s.load s.pc) = some o)
    (h : 255 < s.pc.toNat + o.operands) : fetchInstr s = .error (.outOfBounds .operand) := by
  have hlen : ((byteAfter s 1).toList ++ (byteAfter s 2).toList).length < o.operands := by
    have := Opcode.operands_le_two o
    have := s.pc.isLt
    rw [List.length_append, byteAfter_toList_length, byteAfter_toList_length]
    split_ifs <;> omega
  have hdecode : decode (fetchWindow s) = .error .truncated := by
    simp only [fetchWindow, decode, ho, Opcode.readOperands_truncated hlen]
  rw [fetchInstr, hdecode]
  rfl

/-- Settles O18: the fetch fails, and the fault is taken with `ir` loaded. -/
theorem operandBeyondMemoryIsRaised : Obligations.OperandBeyondMemoryIsRaised := by
  intro s o hs ho h
  have hstep : step s = .next (raise (.outOfBounds .operand) (loadLatches s)) := by
    rw [step_running hs, fetchInstr_operand_beyond ho h]
  exact ⟨_, hstep, rfl, rfl, rfl, step_ir hstep, sameArchitecture_raise_loadLatches _ s⟩

/-! ### The instruction whose bytes lie at the PC -/

section
variable (s : State)

theorem loadOpa_opa : (loadOpa s).opa = if 1 ≤ operandsOf s.ir then (byteAfter s 1).getD s.opa else s.opa := by
  unfold loadOpa
  cases byteAfter s 1 with
  | none => simp
  | some b => dsimp only; split_ifs <;> rfl

theorem loadOpb_opb : (loadOpb s).opb = if 2 ≤ operandsOf s.ir then (byteAfter s 2).getD s.opb else s.opb := by
  unfold loadOpb
  cases byteAfter s 2 with
  | none => simp
  | some b => dsimp only; split_ifs <;> rfl

theorem loadLatches_opa : (loadLatches s).opa =
    if 1 ≤ operandsOf (s.load s.pc) then (byteAfter s 1).getD s.opa else s.opa := by
  obtain ⟨w, hw⟩ := loadOpb_frame (loadOpa (loadIr s))
  rw [loadLatches, hw]
  exact loadOpa_opa (loadIr s)

theorem loadLatches_opb : (loadLatches s).opb =
    if 2 ≤ operandsOf (s.load s.pc) then (byteAfter s 2).getD s.opb else s.opb := by
  obtain ⟨v, hv⟩ := loadOpa_frame (loadIr s)
  rw [loadLatches, hv]
  exact loadOpb_opb _

end

section
variable {s : State} {i : Instr}

theorem operandsOf_opcodeByte (i : Instr) : operandsOf i.opcodeByte = i.operandBytes.length := by
  obtain ⟨o, hdispatch, -, hcount, -⟩ := encodedShape i
  rw [operandsOf, hdispatch, ← hcount]

theorem Instr.operandBytes_length_le (i : Instr) : i.operandBytes.length ≤ 2 := by
  obtain ⟨o, -, -, hcount, -⟩ := encodedShape i
  exact hcount ▸ Opcode.operands_le_two o

theorem load_pc_of_bytesAtPc (h : s.bytesAtPc i) : s.load s.pc = i.opcodeByte := by
  have haddr : trunc8 (s.pc.toNat + (0 : Fin 3).val) = s.pc := (trunc8_eq_iff (Nat.le_of_lt_succ s.pc.isLt)).2 rfl
  rw [← h.2 0 i.opcodeByte rfl, haddr]

/-- Operand byte `k` of the instruction at the PC is at an address that exists. -/
theorem byteAfter_of_bytesAtPc (h : s.bytesAtPc i) {k : Nat} {b : Byte} (hb : i.operandBytes[k]? = some b) :
    byteAfter s (k + 1) = some b := by
  obtain ⟨hfits, hbytes⟩ := h
  obtain ⟨hk, -⟩ := List.getElem?_eq_some_iff.1 hb
  have hlen : i.length = i.operandBytes.length + 1 := rfl
  have := Instr.operandBytes_length_le i
  rw [byteAfter, if_neg (by omega)]
  exact congrArg some (hbytes ⟨k + 1, by omega⟩ b hb)

/-- The bytes at the PC begin with the instruction's encoding. -/
theorem fetchWindow_of_bytesAtPc (h : s.bytesAtPc i) : ∃ rest, fetchWindow s = encode i ++ rest := by
  have hle := Instr.operandBytes_length_le i
  rw [fetchWindow, load_pc_of_bytesAtPc h, encode]
  match hops : i.operandBytes with
  | [] => exact ⟨_, rfl⟩
  | [a] =>
    have ha : byteAfter s 1 = some a := byteAfter_of_bytesAtPc h (by rw [hops]; rfl)
    exact ⟨_, by rw [ha]; rfl⟩
  | [a, b] =>
    have ha : byteAfter s 1 = some a := byteAfter_of_bytesAtPc h (by rw [hops]; rfl)
    have hb : byteAfter s 2 = some b := byteAfter_of_bytesAtPc h (by rw [hops]; rfl)
    exact ⟨[], by rw [ha, hb]; rfl⟩
  | _ :: _ :: _ :: _ => rw [hops] at hle; simp at hle

theorem fetchInstr_of_bytesAtPc (h : s.bytesAtPc i) : fetchInstr s = .ok i := by
  obtain ⟨rest, hw⟩ := fetchWindow_of_bytesAtPc h
  rw [fetchInstr, hw, decode_encode]

theorem step_of_bytesAtPc (hs : s.status = .running) (h : s.bytesAtPc i) : step s = exec i (loadLatches s) := by
  rw [step_running hs, fetchInstr_of_bytesAtPc h]

/-- A latch holds its operand byte where the instruction has one, and else what it held (log 5). -/
theorem latch_of_bytesAtPc (h : s.bytesAtPc i) (k : Nat) (old : Byte) :
    (if k + 1 ≤ operandsOf (s.load s.pc) then (byteAfter s (k + 1)).getD old else old) =
      i.operandBytes.getD k old := by
  rw [load_pc_of_bytesAtPc h, operandsOf_opcodeByte]
  split_ifs with hk
  · rw [byteAfter_of_bytesAtPc h (List.getElem?_eq_getElem hk), List.getD_eq_getElem _ _ hk]
    rfl
  · rw [List.getD_eq_default _ _ (by omega)]

end

/-- Settles O22: the bytes decode to the instruction, and the latches hold its bytes. -/
theorem stepRunsTheInstructionAtPc : Obligations.StepRunsTheInstructionAtPc := by
  intro s i hs h
  refine ⟨step_of_bytesAtPc hs h, (loadLatches_ir s).trans (load_pc_of_bytesAtPc h),
    (loadLatches_opa s).trans (latch_of_bytesAtPc h 0 _), (loadLatches_opb s).trans (latch_of_bytesAtPc h 1 _),
    sameArchitecture_loadLatches s, loadLatches_status s, loadLatches_cause s, loadLatches_info s⟩

end Sys2Proof.Machine

/-! The run and the executor (40_fetch_decode_execute.md R109, 70_reset_and_hazards.md R187). -/

namespace Sys2Proof.Machine

section
variable {s u : State} {n m : Nat}

/-! ### The sequence of steps and its end -/

theorem step_stateAfter (h : (stateAfter n s).status = .running) :
    step (stateAfter n s) = .next (stateAfter (n + 1) s) := by
  rw [stateAfter_add]
  exact step_eq_stateAfter_one h

theorem stateAfter_eq_of_le (h : (stateAfter n s).status ≠ .running) (hm : n ≤ m) :
    stateAfter m s = stateAfter n s := by
  obtain ⟨k, rfl⟩ := Nat.exists_eq_add_of_le hm
  rw [stateAfter_add, stateAfter_stopped h]

/-- Settles O43 with the step at each number and the standstill after the end. -/
theorem runIsTheSequenceOfSteps : Obligations.RunIsTheSequenceOfSteps :=
  fun _ _ => ⟨rfl, step_stateAfter, fun h _ => stateAfter_eq_of_le h⟩

/-- A core RUNNING after some number of steps was RUNNING at every smaller number. -/
theorem running_of_le (h : (stateAfter m s).status = .running) (hn : n ≤ m) : (stateAfter n s).status = .running := by
  by_contra hne
  rw [stateAfter_eq_of_le hne hn] at h
  exact hne h

/-- A run ends at one number of steps at most. -/
theorem endsAfter_unique (hm : EndsAfter s m) (hn : EndsAfter s n) : m = n := by
  obtain ⟨hmEnd, hmRun⟩ := hm
  obtain ⟨hnEnd, hnRun⟩ := hn
  rcases Nat.lt_trichotomy m n with hlt | heq | hgt
  · exact absurd (hnRun m hlt) hmEnd
  · exact heq
  · exact absurd (hmRun n hgt) hnEnd

/-- A core that is no longer RUNNING ended its run at some number of steps before. -/
theorem exists_endsAfter (h : (stateAfter m s).status ≠ .running) : ∃ n, n ≤ m ∧ EndsAfter s n := by
  classical
  have hex : ∃ n, (stateAfter n s).status ≠ .running := ⟨m, h⟩
  exact ⟨Nat.find hex, Nat.find_min' hex h, Nat.find_spec hex, fun k hk => not_not.1 (Nat.find_min hex hk)⟩

/-- The step that ends a run: the HLT at the PC, or a raisable fault. -/
theorem step_ends_cases {t : State} (h : step s = .next t) (ht : t.status ≠ .running) :
    (t.status = .halted ∧ s.load s.pc = 0x01 ∧ t = (loadLatches s).halt) ∨
      (t.status = .faulted ∧ ∃ f : Trap, f.raisable ∧ t = raise f (loadLatches s)) := by
  rcases step_raises_or_effect h with ⟨f, hf, rfl⟩ | ⟨i, hi, he⟩
  · exact .inr ⟨rfl, f, hf, rfl⟩
  · have hstatus := effect_loadLatches_status (step_cases h).1 he
    obtain rfl : i = .hlt := by
      by_contra hne
      exact ht (hstatus.trans (if_neg hne))
    exact .inl ⟨hstatus, fetchInstr_opcodeByte hi, he⟩

/-- Settles O44: the end is unique, and the step before it, from a RUNNING state, is one that ends a run. -/
theorem runEndsByHltOrByFault : Obligations.RunEndsByHltOrByFault := by
  intro s n hs hn
  refine ⟨fun m hm => endsAfter_unique hm hn, ?_⟩
  obtain ⟨hend, hrun⟩ := hn
  cases n with
  | zero => exact absurd hs hend
  | succ k => exact ⟨k, rfl, step_ends_cases (step_stateAfter (hrun k k.lt_succ_self)) hend⟩

/-! ### The executor's reports -/

/-- The report tells the status of the state the budget leaves, and carries that state (R109). -/
theorem runFor_eq_exhausted {budget : Nat} : runFor budget s = .exhausted u ↔
    u = stateAfter budget s ∧ (stateAfter budget s).status = .running := by
  unfold runFor
  split <;> simp [*, eq_comm]

theorem runFor_eq_halted {budget : Nat} : runFor budget s = .halted u ↔
    u = stateAfter budget s ∧ (stateAfter budget s).status = .halted := by
  unfold runFor
  split <;> simp [*, eq_comm]

theorem runFor_eq_faulted {budget : Nat} : runFor budget s = .faulted u ↔
    u = stateAfter budget s ∧ (stateAfter budget s).status = .faulted := by
  unfold runFor
  split <;> simp [*, eq_comm]

/-- The state a spent budget leaves is, where it is not RUNNING, the last one of a run that ended within the budget. -/
theorem stateAfter_stopped_iff {st : Status} (hst : st ≠ .running) :
    (u = stateAfter m s ∧ (stateAfter m s).status = st) ↔ ∃ n, n ≤ m ∧ EndsAfter s n ∧ u = stateAfter n s ∧ u.status = st := by
  constructor
  · rintro ⟨rfl, hu⟩
    obtain ⟨n, hn, hend⟩ := exists_endsAfter (hu.trans_ne hst)
    exact ⟨n, hn, hend, stateAfter_eq_of_le hend.1 hn, hu⟩
  · rintro ⟨n, hn, hend, rfl, hu⟩
    rw [stateAfter_eq_of_le hend.1 hn]
    exact ⟨rfl, hu⟩

end

/-- Settles O45: each report tells the status after the budget, and a core that is not RUNNING then stands still. -/
theorem exhaustedBudgetIsNeitherEnd : Obligations.ExhaustedBudgetIsNeitherEnd := by
  intro s u budget
  refine ⟨?_, runFor_eq_halted.trans (stateAfter_stopped_iff (by simp)),
    runFor_eq_faulted.trans (stateAfter_stopped_iff (by simp)), fun h more => ?_⟩
  · rw [runFor_eq_exhausted]
    exact and_congr_right fun _ => ⟨fun h _ => running_of_le h, fun h => h budget le_rfl⟩
  · have hstop : (stateAfter budget s).status ≠ .running := fun hr => h (runFor_eq_exhausted.2 ⟨rfl, hr⟩)
    rw [runFor, runFor, stateAfter_eq_of_le hstop (Nat.le_add_right budget more)]

/-! ### A jump to itself -/

/-- A jump of a register that holds the PC leaves a RUNNING core as the fetch leaves it. -/
theorem step_jmp_to_itself {s : State} {r : RegIx} (hs : s.status = .running) (h : s.bytesAtPc (.jmp (regByte r)))
    (hr : s.reg r = s.pc) : step s = .next (loadLatches s) := by
  have hfits : s.pc.toNat + 2 ≤ 256 := h.1
  have hpc : (loadLatches s).setPc ((loadLatches s).reg r) = loadLatches s := by
    rw [loadLatches_reg, hr, ← loadLatches_pc s]
    rfl
  rw [step_of_bytesAtPc hs h]
  refine exec_of_effect ⟨r, (regByte_toNat r).symm, ?_, hpc.symm⟩
  rw [loadLatches_pc]
  omega

/-- What stands at the PC is told by the architecture. -/
theorem bytesAtPc_of_sameArchitecture {s t : State} {i : Instr} (hst : SameArchitecture s t) (h : s.bytesAtPc i) :
    t.bytesAtPc i := by
  obtain ⟨-, hpc, -, hm, -⟩ := hst
  rw [State.bytesAtPc, hpc]
  exact ⟨h.1, fun k b hb => (hm _).trans (h.2 k b hb)⟩

/-- Settles O46: RUNNING with the architecture of the first state is kept by every step. -/
theorem jumpToItselfNeverEnds : Obligations.JumpToItselfNeverEnds := by
  intro s r hs h hr budget
  have hkeep : ∀ t t', SameArchitecture s t ∧ t.status = .running → step t = .next t' →
      SameArchitecture s t' ∧ t'.status = .running := by
    rintro t t' ⟨hst, ht⟩ hstep
    have hreg : t.reg r = t.pc := by
      obtain ⟨hregs, hpc, -⟩ := hst
      rw [hregs r List.not_mem_nil, hr, hpc]
    rw [step_jmp_to_itself ht (bytesAtPc_of_sameArchitecture hst h) hreg] at hstep
    obtain rfl := Host.Outcome.next.inj hstep
    exact ⟨hst.trans (sameArchitecture_loadLatches t), (loadLatches_status t).trans ht⟩
  have hself : SameArchitecture s s := ⟨fun _ _ => rfl, rfl, rfl, fun _ => rfl, rfl⟩
  obtain ⟨harch, hrun⟩ := stateAfter_keeps hkeep ⟨hself, hs⟩ budget
  exact ⟨_, runFor_eq_exhausted.2 ⟨rfl, hrun⟩, harch⟩

/-! ### The run of a program image -/

/-- Bytes stored from address `a` on are read back from there, and every other address reads as before (R52). -/
theorem Memory.read_placeBytes (bs : List Byte) {a : Nat} (h : a + bs.length ≤ 256) (m : Memory) (b : Byte) :
    (Memory.placeBytes bs a m).read b =
      if b.toNat < a then m.read b else bs.getD (b.toNat - a) (m.read b) := by
  induction bs generalizing a m with
  | nil => simp [Memory.placeBytes]
  | cons v bs ih =>
    rw [List.length_cons] at h
    have haddr : b = BitVec.ofNat 8 a ↔ b.toNat = a := by
      rw [eq_comm]
      exact trunc8_eq_iff (by omega)
    rw [Memory.placeBytes, if_pos (show a < Config.memSize from Nat.lt_of_lt_of_le (by omega) h), ih (by omega)]
    simp only [Memory.read_write, haddr]
    rcases Nat.lt_trichotomy b.toNat a with hlt | rfl | hgt
    · rw [if_pos (by omega), if_neg (by omega), if_pos hlt]
    · simp
    · rw [if_neg (by omega), if_neg (by omega), if_neg (by omega),
        show b.toNat - a = b.toNat - (a + 1) + 1 by omega, List.getD_cons_succ]

theorem loadProgram_too_long {program : List Byte} (h : 256 < program.length) (s : State) :
    loadProgram program s = .error .outOfBounds :=
  if_pos h

theorem loadProgram_fits {program : List Byte} (h : program.length ≤ 256) (s : State) :
    loadProgram program s = .ok { s with mem := Memory.placeBytes program 0 s.mem } :=
  if_neg (Nat.not_lt.2 h)

/-- Settles O47: the launch is the load of the image into the reset state, whose cells all read 0. -/
theorem programRunsFromTheLaunchState : Obligations.ProgramRunsFromTheLaunchState := by
  intro budget program
  constructor
  · intro h
    rw [runProgram, launch, loadProgram_too_long h]
    rfl
  · intro h
    refine ⟨_, by rw [runProgram, launch, loadProgram_fits h]; rfl, fun a => ?_, rfl⟩
    exact (Memory.read_placeBytes program (by omega) _ a).trans (if_neg (Nat.not_lt_zero _))

end Sys2Proof.Machine

/-! The data and system instructions, run forward with their whole frame (41_data_and_system.md). -/

namespace Sys2Proof.Machine

/-- Settles O1: the effect writes one register and the PC. -/
theorem ldiLoadsTheImmediate : Obligations.LdiLoadsTheImmediate := by
  intro r imm s hpc
  obtain ⟨p, -, hp⟩ := nextPc_le (s := s) (n := 3) (by omega)
  have hexec : exec (.ldi (regByte r) imm) s = .next ((s.setReg r imm).setPc p) :=
    exec_of_effect ⟨r, p, (regByte_toNat r).symm, hp, rfl⟩
  have hr : (s.setReg r imm).reg r = imm := by rw [State.setReg_reg, if_pos rfl]
  have hregs : SameRegsExcept [r] s (s.setReg r imm) := fun _ hq => State.setReg_reg_of_ne (List.ne_of_not_mem_cons hq)
  exact ⟨_, hexec, hr, hregs, hp, rfl, fun _ => rfl, rfl, rfl, rfl, rfl, rfl, rfl, rfl⟩

/-- Settles O2: the effect writes the output and the PC. -/
theorem prnEmitsTheRegister : Obligations.PrnEmitsTheRegister := by
  intro r s hpc
  obtain ⟨p, -, hp⟩ := nextPc_le (s := s) (n := 2) (by omega)
  have hexec : exec (.prn (regByte r)) s = .next ((s.emit (s.reg r)).setPc p) :=
    exec_of_effect ⟨r, p, (regByte_toNat r).symm, hp, rfl⟩
  exact ⟨_, hexec, rfl, fun _ _ => rfl, hp, rfl, fun _ => rfl, rfl, rfl, rfl, rfl, rfl, rfl⟩

/-- Settles O3: the effect writes the status alone, with no guard to pass. -/
theorem hltHaltsAndChangesNothingElse : Obligations.HltHaltsAndChangesNothingElse := by
  intro s
  have hexec : exec .hlt s = .next s.halt := exec_of_effect (i := .hlt) rfl
  have harch : SameArchitecture s s.halt := ⟨fun _ _ => rfl, rfl, rfl, fun _ => rfl, rfl⟩
  exact ⟨_, hexec, rfl, harch, rfl, rfl, rfl, rfl, rfl⟩

end Sys2Proof.Machine

/-! The ALU instructions, run forward with their whole frame (42_alu.md). -/

namespace Sys2Proof.Machine

section
variable {s : State}

theorem exec_add_writes (hpc : s.pc.toNat ≤ 252) (a b : RegIx) : ∃ p, p.toNat = s.pc.toNat + 3 ∧
    exec (.add (regByte a) (regByte b)) s = .next ((s.setReg a (s.reg a + s.reg b)).setPc p) := by
  obtain ⟨p, -, hp⟩ := nextPc_le (s := s) (n := 3) (by omega)
  rw [← aluSum_eq]
  exact ⟨p, hp, exec_of_effect ⟨a, b, p, (regByte_toNat a).symm, (regByte_toNat b).symm, hp, rfl⟩⟩

theorem exec_mul_writes (hpc : s.pc.toNat ≤ 252) (a b : RegIx) : ∃ p, p.toNat = s.pc.toNat + 3 ∧
    exec (.mul (regByte a) (regByte b)) s = .next ((s.setReg a (s.reg a * s.reg b)).setPc p) := by
  obtain ⟨p, -, hp⟩ := nextPc_le (s := s) (n := 3) (by omega)
  rw [← aluProduct_eq]
  exact ⟨p, hp, exec_of_effect ⟨a, b, p, (regByte_toNat a).symm, (regByte_toNat b).symm, hp, rfl⟩⟩

/-- What ADD and MUL share: an instruction that writes `f` of its two registers to the first one changes nothing
else but the PC, and where `f` is commutative the other operand order writes the same value. -/
theorem commutative_write_frame {i : RegIx → RegIx → Instr} {f : Byte → Byte → Byte}
    (hi : ∀ a b, ∃ p, p.toNat = s.pc.toNat + 3 ∧
      exec (i a b) s = .next ((s.setReg a (f (s.reg a) (s.reg b))).setPc p))
    (hf : ∀ x y, f x y = f y x) (a b : RegIx) :
    ∃ t, exec (i a b) s = .next t ∧ t.reg a = f (s.reg a) (s.reg b) ∧
      SameRegsExcept [a] s t ∧ t.pc.toNat = s.pc.toNat + 3 ∧
      t.flagE = s.flagE ∧ SameMemory s t ∧ t.out = s.out ∧ SameControl s t ∧
      ∃ u, exec (i b a) s = .next u ∧ u.reg b = t.reg a ∧ SameRegsExcept [b] s u := by
  have hreg : ∀ (r : RegIx) (v p : Byte), ((s.setReg r v).setPc p).reg r = v := by simp
  have hregs : ∀ (r : RegIx) (v p : Byte), SameRegsExcept [r] s ((s.setReg r v).setPc p) :=
    fun _ _ _ _ hq => State.setReg_reg_of_ne (List.ne_of_not_mem_cons hq)
  obtain ⟨p, hp, hexec⟩ := hi a b
  obtain ⟨q, -, hexec'⟩ := hi b a
  exact ⟨_, hexec, hreg a _ p, hregs a _ p, hp, rfl, fun _ => rfl, rfl, ⟨rfl, rfl, rfl, rfl, rfl, rfl⟩,
    _, hexec', by rw [hreg, hreg, hf], hregs b _ q⟩

end

/-- Settles O4: ADD writes the word type's sum, whose laws are the arithmetic of R131. -/
theorem addWritesTheSumModulo256 : Obligations.AddWritesTheSumModulo256 := by
  intro a b s hpc
  obtain ⟨t, hexec, hv, hframe⟩ := commutative_write_frame (exec_add_writes hpc) BitVec.add_comm a b
  refine ⟨t, hexec, ?unsigned, ?signed, ?zero, hframe⟩
  case unsigned => rw [hv, BitVec.toNat_add]
  case signed => rw [hv, BitVec.toInt_add]
  case zero => intro h; rw [hv, h, add_zero]

/-- Settles O5: MUL writes the word type's product, whose laws are the arithmetic of R132. -/
theorem mulWritesTheProductModulo256 : Obligations.MulWritesTheProductModulo256 := by
  intro a b s hpc
  obtain ⟨t, hexec, hv, hframe⟩ := commutative_write_frame (exec_mul_writes hpc) BitVec.mul_comm a b
  refine ⟨t, hexec, ?unsigned, ?signed, ?zero, ?one, hframe⟩
  case unsigned => rw [hv, BitVec.toNat_mul]
  case signed => rw [hv, BitVec.toInt_mul]
  case zero => intro h; rw [hv, h, mul_zero]
  case one => intro h; rw [hv, h, mul_one]

/-- Settles O6: the effect writes E and the PC, and E is the decision of the equality. -/
theorem cmpSetsTheFlagExactlyOnEquality : Obligations.CmpSetsTheFlagExactlyOnEquality := by
  intro a b s hpc
  obtain ⟨p, -, hp⟩ := nextPc_le (s := s) (n := 3) (by omega)
  have hexec : exec (.cmp (regByte a) (regByte b)) s =
      .next ((s.setFlag (equalFlag (s.reg a) (s.reg b))).setPc p) :=
    exec_of_effect ⟨a, b, p, (regByte_toNat a).symm, (regByte_toNat b).symm, hp, rfl⟩
  have hflag : equalFlag (s.reg a) (s.reg b) = true ↔ s.reg a = s.reg b := decide_eq_true_iff
  exact ⟨_, hexec, hflag, fun _ _ => rfl, hp, fun _ => rfl, rfl, rfl, rfl, rfl, rfl, rfl, rfl⟩

end Sys2Proof.Machine

/-! The stack instructions, run forward with their whole frame, and the discipline the two together keep (43_stack.md). -/

namespace Sys2Proof.Machine

/-- Settles O7: the effect writes the operand's register, register 7 and the PC. Register 7 is
written last, so with operand 7 the incremented byte replaces the popped one. -/
theorem popLoadsTheTopAndIncrementsSp : Obligations.PopLoadsTheTopAndIncrementsSp := by
  intro r s hpc hbase
  obtain ⟨p, -, hp⟩ := nextPc_le (s := s) (n := 2) (by omega)
  obtain ⟨n, -, hn⟩ := popIncrement_le hbase
  have hexec : exec (.pop (regByte r)) s = .next (((s.setReg r (s.load (s.reg 7))).setSp n).setPc p) :=
    exec_of_effect ⟨r, p, n, (regByte_toNat r).symm, hp, hn, rfl⟩
  refine ⟨_, hexec, ?sp, ?top, ?regs, hp, rfl, fun _ => rfl, rfl, rfl, rfl, rfl, rfl, rfl, rfl⟩
  case sp => simpa using hn
  case top => intro hr; simp [hr.symm]
  case regs =>
    intro q hq
    obtain ⟨hqr, hq7⟩ : q ≠ r ∧ q ≠ 7 := by simpa using hq
    exact (State.setReg_reg_of_ne hq7).trans (State.setReg_reg_of_ne hqr)

/-- Settles O8: the effect writes register 7, the PC and one cell, and what `pushSlot` gives is both the new register 7
and that cell's address. -/
theorem pushDecrementsSpAndStores : Obligations.PushDecrementsSpAndStores := by
  intro r s hpc hsp
  obtain ⟨p, -, hp⟩ := nextPc_le (s := s) (n := 2) (by omega)
  obtain ⟨n, hslot, hn⟩ := pushSlot_pos hsp
  have hexec : exec (.push (regByte r)) s =
      .next (((s.setSp n).store n (if r = 7 then n else s.reg r)).setPc p) :=
    exec_of_effect ⟨r, p, n, (regByte_toNat r).symm, hp, hslot, rfl⟩
  refine ⟨_, n, hexec, hslot, hn, ?sp, ?regs, ?cell, ?cells, hp, rfl, rfl, rfl, rfl, rfl, rfl, rfl, rfl⟩
  case sp => simp
  case regs => exact fun _ hq => State.setReg_reg_of_ne (List.ne_of_not_mem_cons hq)
  case cell => simp
  case cells => intro b hb; simp [hb]

section
variable {s t : State} {r : RegIx}

/-- PUSH of another register than 7: its slot is named by the new register 7. -/
theorem exec_push_stores_at_slot (hr : r ≠ 7) (hpc : s.pc.toNat + 2 ≤ 255) (hsp : 1 ≤ (s.reg 7).toNat) :
    ∃ t, exec (.push (regByte r)) s = .next t ∧ pushSlot s = .ok (t.reg 7) ∧ t.load (t.reg 7) = s.reg r ∧
      SameRegsExcept [7] s t ∧ (∀ b, b ≠ t.reg 7 → t.load b = s.load b) ∧ t.pc.toNat = s.pc.toNat + 2 := by
  obtain ⟨t, slot, hexec, hslot, -, rfl, hregs, hcell, hcells, hp, -⟩ :=
    pushDecrementsSpAndStores r s (by omega) hsp
  exact ⟨t, hexec, hslot, hcell.trans (if_neg hr), hregs, hcells, hp⟩

/-- POP to another register than 7 undoes a push from `s` wherever SP is the slot of that push: it restores the SP of
`s`, whatever has run in between. -/
theorem exec_pop_from_slot (hr : r ≠ 7) (hpc : t.pc.toNat + 2 ≤ 255) (hslot : pushSlot s = .ok (t.reg 7)) :
    ∃ u, exec (.pop (regByte r)) t = .next u ∧ u.reg r = t.load (t.reg 7) ∧ u.reg 7 = s.reg 7 ∧
      SameRegsExcept [r, 7] t u ∧ SameMemory t u ∧ u.pc.toNat = t.pc.toNat + 2 := by
  have hsp : (t.reg 7).toNat + 1 = (s.reg 7).toNat := pushSlot_eq_ok.1 hslot
  have hroom : (t.reg 7).toNat ≤ 254 := by have := (s.reg 7).isLt; omega
  obtain ⟨u, hexec, hu, htop, hregs, hp, -, hmem, -⟩ :=
    popLoadsTheTopAndIncrementsSp r t (by omega) (by rwa [if_neg hr])
  rw [if_neg hr] at hu
  exact ⟨u, hexec, htop hr, BitVec.eq_of_toNat_eq (hu.trans hsp), hregs, hmem, hp⟩

/-- A POP right after a PUSH copies the register and leaves the byte in its cell. -/
theorem push_then_pop {a : RegIx} (ha : a ≠ 7) (hr : r ≠ 7) (hsp : 1 ≤ (s.reg 7).toNat)
    (hpc : s.pc.toNat + 4 ≤ 255) :
    ∃ t u slot, exec (.push (regByte a)) s = .next t ∧ exec (.pop (regByte r)) t = .next u ∧
      u.reg r = s.reg a ∧ u.reg 7 = s.reg 7 ∧ pushSlot s = .ok slot ∧ u.load slot = s.reg a := by
  obtain ⟨t, hpush, hslot, hcell, -, -, hp⟩ := exec_push_stores_at_slot ha (by omega) hsp
  obtain ⟨u, hpop, htop, hback, -, hmem, -⟩ := exec_pop_from_slot hr (by omega) hslot
  exact ⟨t, u, t.reg 7, hpush, hpop, htop.trans hcell, hback, hslot, (hmem _).trans hcell⟩

/-- The second push stores below the first one's slot, so the first byte is still there when the first pop has brought
SP back to it; and the second pop leaves the first one's register. -/
theorem push_push_then_pop_pop {a b c d : RegIx} (ha : a ≠ 7) (hb : b ≠ 7) (hc : c ≠ 7) (hd : d ≠ 7) (hcd : c ≠ d)
    (hsp : 2 ≤ (s.reg 7).toNat) (hpc : s.pc.toNat + 8 ≤ 255) :
    ∃ t u v w, exec (.push (regByte a)) s = .next t ∧ exec (.push (regByte b)) t = .next u ∧
      exec (.pop (regByte c)) u = .next v ∧ exec (.pop (regByte d)) v = .next w ∧
      w.reg c = s.reg b ∧ w.reg d = s.reg a ∧ w.reg 7 = s.reg 7 := by
  obtain ⟨t, hpush₁, hslot₁, hcell₁, hregs₁, -, hp₁⟩ := exec_push_stores_at_slot (s := s) ha (by omega) (by omega)
  have hsp₁ : (t.reg 7).toNat + 1 = (s.reg 7).toNat := pushSlot_eq_ok.1 hslot₁
  obtain ⟨u, hpush₂, hslot₂, hcell₂, -, hcells₂, hp₂⟩ := exec_push_stores_at_slot (s := t) hb (by omega) (by omega)
  have hsp₂ : (u.reg 7).toNat + 1 = (t.reg 7).toNat := pushSlot_eq_ok.1 hslot₂
  obtain ⟨v, hpop₁, htop₁, hback₁, -, hmem, hp₃⟩ := exec_pop_from_slot hc (by omega) hslot₂
  obtain ⟨w, hpop₂, htop₂, hback₂, hregs₂, -⟩ := exec_pop_from_slot (t := v) hd (by omega) (hback₁.symm ▸ hslot₁)
  have hbelow : t.reg 7 ≠ u.reg 7 := fun e => by rw [e] at hsp₂; omega
  have hfirst : w.reg d = s.reg a := calc
    w.reg d = v.load (t.reg 7) := by rw [htop₂, hback₁]
    _ = u.load (t.reg 7) := hmem _
    _ = t.load (t.reg 7) := hcells₂ _ hbelow
    _ = s.reg a := hcell₁
  have hsecond : w.reg c = s.reg b := calc
    w.reg c = v.reg c := hregs₂ c (by simp [hcd, hc])
    _ = t.reg b := htop₁.trans hcell₂
    _ = s.reg b := hregs₁ b (by simp [hb])
  exact ⟨t, u, v, w, hpush₁, hpush₂, hpop₁, hpop₂, hsecond, hfirst, hback₂⟩

/-- A cell that reads differently was stored to: by PUSH or CALL, at its slot (20_memory.md R62). -/
theorem changed_cell_is_slot {i : Instr} {b : Byte} (h : exec i s = .next t) (hb : t.load b ≠ s.load b) :
    (∃ a, i = .push a ∨ i = .call a) ∧ pushSlot s = .ok b := by
  obtain ⟨hothers, hcells, hfault⟩ := onlyPushAndCallStore i s t h
  constructor
  · by_contra hi
    exact hb (hothers (fun a => not_or.1 fun ha => hi ⟨a, ha⟩) b)
  · cases hslot : pushSlot s with
    | error f => exact absurd (hfault f hslot b) hb
    | ok slot =>
      have hbs : b = slot := by_contra fun hne => hb (hcells slot hslot b hne)
      rw [hbs]

end

/-- Settles O34, clause by clause. -/
theorem stackIsLastInFirstOut : Obligations.StackIsLastInFirstOut :=
  ⟨fun _ _ _ ha hr => push_then_pop ha hr,
    fun _ _ _ _ _ ha hb hc hd hcd => push_push_then_pop_pop ha hb hc hd hcd,
    fun _ _ _ _ => changed_cell_is_slot⟩

end Sys2Proof.Machine

/-! The control transfers, run forward with their whole frame, and the return that undoes a call
(44_control_transfer.md). -/

namespace Sys2Proof.Machine

/-- A jump's whole frame: it writes the PC and nothing else. -/
theorem State.setPc_frame (s : State) (p : Byte) :
    SameRegsExcept [] s (s.setPc p) ∧ (s.setPc p).flagE = s.flagE ∧ SameMemory s (s.setPc p) ∧
      (s.setPc p).out = s.out ∧ SameControl s (s.setPc p) :=
  ⟨fun _ _ => rfl, rfl, fun _ => rfl, rfl, rfl, rfl, rfl, rfl, rfl, rfl⟩

/-- The branch control of JEQ and JNE run forward: only the fall-through has a next PC to check, so a taken jump
completes at 254 too. -/
theorem branch_regByte {taken : Bool} {s : State} (r : RegIx) (hpc : s.pc.toNat ≤ if taken then 254 else 253) :
    ∃ p, (taken = true → p = s.reg r) ∧ (taken = false → p.toNat = s.pc.toNat + 2) ∧
      branch taken (regByte r) s = .next (s.setPc p) := by
  cases taken with
  | true =>
    have hr := oneRegister_regByte r (s := s) hpc
    exact ⟨s.reg r, fun _ => rfl, nofun, by simp [branch, branchTarget, hr]⟩
  | false =>
    have hle : s.pc.toNat ≤ 253 := hpc
    have hr := oneRegister_regByte r (s := s) (by omega)
    obtain ⟨p, hnext, hp⟩ := nextPc_le (s := s) (n := 2) (by omega)
    exact ⟨p, nofun, fun _ => hp, by simp [branch, branchTarget, hr, hnext]⟩

/-- Settles O9: the effect writes register 7, one cell and the PC, and the decremented pointer is both the new
register 7 and that cell's address. -/
theorem callPushesTheReturnAddressAndJumps : Obligations.CallPushesTheReturnAddressAndJumps := by
  intro r s hpc hsp
  obtain ⟨back, n, hback, hn, hexec⟩ := exec_call_moves_down r hpc hsp
  have hslot : pushSlot s = .ok n := pushSlot_eq_ok.2 hn
  refine ⟨_, n, hexec, hslot, hn, ?sp, ?regs, ?cell, ?cells, rfl, rfl, rfl, rfl, rfl, rfl, rfl, rfl, rfl⟩
  case sp => simp
  case regs => exact fun _ hq => State.setReg_reg_of_ne (List.ne_of_not_mem_cons hq)
  case cell => simpa using hback
  case cells => intro b hb; simp [hb]

/-- Settles O12: JEQ is the branch taken on E. -/
theorem jeqJumpsExactlyWhenEIsSet : Obligations.JeqJumpsExactlyWhenEIsSet := by
  intro r s hpc
  obtain ⟨p, htaken, hfall, hexec⟩ := branch_regByte r hpc
  exact ⟨_, hexec, htaken, hfall, s.setPc_frame p⟩

/-- Settles O13: JNE is the branch taken on the complement of E. -/
theorem jneJumpsExactlyWhenEIsClear : Obligations.JneJumpsExactlyWhenEIsClear := by
  intro r s hpc
  have hbound : s.pc.toNat ≤ if (!s.flagE) = true then 254 else 253 := by
    cases he : s.flagE <;> simpa [he] using hpc
  obtain ⟨p, htaken, hfall, hexec⟩ := branch_regByte r hbound
  rw [Bool.not_eq_true'] at htaken
  rw [Bool.not_eq_false'] at hfall
  exact ⟨_, hexec, htaken, hfall, s.setPc_frame p⟩

/-- Settles O10: the effect writes register 7 and the PC. -/
theorem retPopsThePc : Obligations.RetPopsThePc := by
  intro s hsp
  obtain ⟨n, hn, hexec⟩ := exec_ret_moves_up hsp
  refine ⟨_, hexec, rfl, ?sp, ?regs, rfl, fun _ => rfl, rfl, rfl, rfl, rfl, rfl, rfl, rfl⟩
  case sp => simpa using hn
  case regs => exact fun _ hq => State.setReg_reg_of_ne (List.ne_of_not_mem_cons hq)

/-- Settles O11: the effect writes the PC alone, and the target is not checked. -/
theorem jmpGoesToTheRegister : Obligations.JmpGoesToTheRegister := by
  intro r s hpc
  have hexec : exec (.jmp (regByte r)) s = .next (s.setPc (s.reg r)) :=
    exec_of_effect ⟨r, (regByte_toNat r).symm, by omega, rfl⟩
  exact ⟨_, hexec, rfl, s.setPc_frame _⟩

/-- Settles O35: SP after the CALL names the cell that holds the return address, and one less than a byte leaves RET
room to increment it. -/
theorem callThenRetReturns : Obligations.CallThenRetReturns := by
  intro s r hpc hsp
  obtain ⟨t, slot, hcall, -, hslot, rfl, -, hcell, -⟩ := callPushesTheReturnAddressAndJumps r s hpc hsp
  refine ⟨t, hcall, fun u hu hload => ?_⟩
  have hroom : (u.reg 7).toNat ≤ 254 := by have := (s.reg 7).isLt; rw [hu]; omega
  obtain ⟨w, hret, hwpc, hwsp, -⟩ := retPopsThePc u hroom
  have hback : w.pc.toNat = s.pc.toNat + 2 := by rw [hwpc, hload, hcell]
  have hsame : w.reg 7 = s.reg 7 := BitVec.eq_of_toNat_eq (by rw [hwsp, hu, hslot])
  exact ⟨w, hret, hback, hsame⟩

end Sys2Proof.Machine

/-! The faults: taking one, which one each instruction takes first, and the byte that is no opcode (60_exceptions.md). -/

namespace Sys2Proof.Machine

/-- Where the table names no fault, the instruction completes with its effect. -/
theorem exec_of_faultTable_none {i : Instr} {s : State} (h : faultTable i s = none) :
    ∃ t, exec i s = .next t ∧ Effect i s t := by
  obtain ⟨t, ht⟩ := exec_answers_next i s
  obtain ⟨f, hf, -⟩ | he := exec_inversion ht
  · rw [h] at hf
    cases hf
  · exact ⟨t, ht, he⟩

/-- Settles O15: the checks fail as the table has it, and an effect keeps `cause` and `info` and writes `status` for HLT
alone. -/
theorem faultsExactlyAsTabulated : Obligations.FaultsExactlyAsTabulated := by
  refine fun i s => ⟨fun f hf => exec_of_faultTable hf, fun hnone => ?_⟩
  obtain ⟨t, ht, he⟩ := exec_of_faultTable_none hnone
  have hfr := effect_frame he
  exact ⟨t, ht, hfr.cause, hfr.info, hfr.status⟩

/-! ### The byte that is no opcode -/

/-- A byte is rejected by the dispatch exactly when it is no row's opcode value (R83, R85). -/
theorem dispatch_eq_none_iff {b : Byte} : dispatch b = none ↔ ∀ o : Opcode, b ≠ (o.instr 0 0).opcodeByte := by
  simp only [Option.eq_none_iff_forall_ne_some, ne_eq, dispatch_eq_some_iff]

theorem Opcode.opcodeByte_mem (o : Opcode) : (o.instr 0 0).opcodeByte ∈
    ([0x82, 0x47, 0x01, 0xA2, 0xA0, 0xA7, 0x46, 0x45, 0x50, 0x11, 0x54, 0x55, 0x56] : List Byte) := by
  cases o <;> decide

/-- The dispatch fails before any operand is read (R102). -/
theorem fetchInstr_illegalOpcode {s : State} (h : dispatch (s.load s.pc) = none) :
    fetchInstr s = .error (.illegalOpcode (s.load s.pc)) := by
  have hdecode : decode (fetchWindow s) = .error (.illegalOpcode (s.load s.pc)) := by
    simp only [fetchWindow, decode, h]
  rw [fetchInstr, hdecode]
  rfl

/-- A byte that matches no row has no operands, so the fetch loads neither operand latch (R27, R104). -/
theorem loadLatches_operands_of_illegal {s : State} (h : dispatch (s.load s.pc) = none) :
    (loadLatches s).opa = s.opa ∧ (loadLatches s).opb = s.opb := by
  have hzero : operandsOf (s.load s.pc) = 0 := by simp only [operandsOf, h]
  simp [loadLatches_opa, loadLatches_opb, hzero]

/-- Settles O17: the 13 values are all the opcode values there are, so the fetch fails in phase D. -/
theorem illegalOpcodeIsRaisedForEveryOtherByte : Obligations.IllegalOpcodeIsRaisedForEveryOtherByte := by
  intro s hs hb
  have hnone : dispatch (s.load s.pc) = none := dispatch_eq_none_iff.2 fun o ho => hb (ho ▸ Opcode.opcodeByte_mem o)
  have hstep : step s = .next (raise (.illegalOpcode (s.load s.pc)) (loadLatches s)) := by
    rw [step_running hs, fetchInstr_illegalOpcode hnone]
  obtain ⟨hopa, hopb⟩ := loadLatches_operands_of_illegal hnone
  exact ⟨_, hstep, rfl, rfl, rfl, step_ir hstep, hopa, hopb, sameArchitecture_raise_loadLatches _ s⟩

/-! ### Taking a fault, and which of two is taken -/

/-- Settles O14: `raise` writes three fields, and the sub-codes are those of R162, kind by kind. -/
theorem raiseWritesOnlyTheFaultState : Obligations.RaiseWritesOnlyTheFaultState := by
  have hraise (f : Trap) (s : State) : SameArchitecture s (raise f s) := ⟨fun _ _ => rfl, rfl, rfl, fun _ => rfl, rfl⟩
  refine ⟨fun f s => ⟨rfl, rfl, rfl, hraise f s, rfl, rfl, rfl⟩, fun _ => ⟨rfl, rfl, rfl, rfl⟩,
    fun k => ⟨rfl, ?_⟩, rfl, rfl, rfl⟩
  cases k <;> rfl

/-- Settles O16: the first four cases are read off the fault table, and LDI at 254 fails in the fetch already. -/
theorem firstFailingCheckIsReported : Obligations.FirstFailingCheckIsReported := by
  refine ⟨fun s hpc hsp => ⟨?_, ?_, ?_⟩, fun s hpc => ?_, fun s hs hpc hldi _ => ?_⟩
  · exact exec_of_faultTable (by simp [faultTable, firstFault, hpc])
  · exact exec_of_faultTable (by simp [faultTable, firstFault, hpc, hsp])
  · exact exec_of_faultTable (by simp [faultTable, firstFault, hpc])
  · have hoperand : ¬ 254 ≤ s.pc.toNat := by omega
    exact exec_of_faultTable (by simp [faultTable, firstFault, hoperand])
  · have hdispatch : dispatch (s.load s.pc) = some .ldi := by rw [hpc, hldi]; rfl
    have hbeyond : 255 < s.pc.toNat + Opcode.ldi.operands := by rw [hpc]; decide
    rw [step_running hs, fetchInstr_operand_beyond hdispatch hbeyond]

end Sys2Proof.Machine

/-! The host's side of the core (70_reset_and_hazards.md): liveness, the loader, the program text, the output and the
exit codes. -/

namespace Sys2Proof.Machine

/-- Settles O23: no instruction stops the model, and neither does a fault of the fetch. -/
theorem runningCoreAlwaysSteps : Obligations.RunningCoreAlwaysSteps :=
  fun _ hs => ⟨_, step_eq_stateAfter_one hs⟩

/-- Settles O39: the loader's bytes are read back from address 0 on, and memory is the one field it writes. -/
theorem loaderWritesTheImageFromAddressZero : Obligations.LoaderWritesTheImageFromAddressZero := by
  refine fun program s => ⟨fun h => loadProgram_too_long h s, fun h =>
    ⟨_, loadProgram_fits h s, fun a => ?_, fun _ _ => rfl, rfl, rfl, rfl, rfl, rfl, rfl, rfl, rfl, rfl⟩⟩
  exact (Memory.read_placeBytes program (by omega) s.mem a).trans (if_neg (Nat.not_lt_zero _))

/-! ### The program text: one literal -/

/-- Digit `k` of a literal stands for bit `k` of the byte. -/
theorem bitOf_digit (b : Byte) (k : Nat) :
    bitOf (if b.getLsbD k then '1' else '0') = some (b.toNat / 2 ^ k % 2) := by
  rw [← BitVec.testBit_toNat, Nat.testBit_eq_decide_div_mod_eq]
  rcases Nat.mod_two_eq_zero_or_one (b.toNat / 2 ^ k) with h | h <;> simp [h, bitOf]

theorem mapM_bitOf_literalOf (b : Byte) :
    (literalOf b).mapM bitOf = some ([7, 6, 5, 4, 3, 2, 1, 0].map fun k => b.toNat / 2 ^ k % 2) := by
  rw [literalOf, List.mapM_map, show bitOf ∘ _ = fun k => pure (b.toNat / 2 ^ k % 2) from funext (bitOf_digit b)]
  exact List.mapM_pure

/-- The leftmost digit is bit 7 (R183): doubling and adding from the left gives the byte back. -/
theorem byteLiteral_literalOf (b : Byte) : byteLiteral (literalOf b) = some b := by
  have hb : b.toNat < 256 := b.isLt
  have hvalue : ([7, 6, 5, 4, 3, 2, 1, 0].map fun k => b.toNat / 2 ^ k % 2).foldl (fun n d => 2 * n + d) 0
      = b.toNat := by
    simp only [List.map_cons, List.map_nil, List.foldl_cons, List.foldl_nil]
    omega
  simp only [byteLiteral, mapM_bitOf_literalOf, hvalue]
  exact congrArg some (BitVec.ofNat_toNat 8 b)

theorem mem_literalOf {b : Byte} {c : Char} (h : c ∈ literalOf b) : c = '1' ∨ c = '0' := by
  obtain ⟨k, -, rfl⟩ := List.mem_map.1 h
  exact ite_eq_or_eq _ _ _

theorem literalOf_ne_nil (b : Byte) : literalOf b ≠ [] := List.cons_ne_nil _ _

/-! ### The program text: one line -/

/-- What has no white space is what is left of it when it is stripped of white space around it. -/
theorem strip_surrounded {p : Char → Bool} {before content after : List Char} (hb : ∀ c ∈ before, p c)
    (hc : ∀ c ∈ content, ¬ p c) (ha : ∀ c ∈ after, p c) :
    (((before ++ content ++ after).dropWhile p).reverse.dropWhile p).reverse = content := by
  rw [List.append_assoc, List.dropWhile_append_of_pos hb]
  cases content with
  | nil => simp [List.dropWhile_eq_nil_iff.2 ha]
  | cons c cs =>
    have hhead : (c :: cs ++ after).dropWhile p = c :: cs ++ after :=
      List.dropWhile_cons_of_neg (hc c List.mem_cons_self)
    have hlast : (c :: cs).reverse.dropWhile p = (c :: cs).reverse :=
      List.dropWhile_eq_self_iff.2 fun _ => hc _ (List.mem_reverse.1 (List.getElem_mem _))
    rw [hhead, List.reverse_append, List.dropWhile_append_of_pos fun c h => ha c (List.mem_reverse.1 h), hlast,
      List.reverse_reverse]

/-- A comment ends what is read of the line (R183). -/
theorem takeWhile_before_comment {text : List Char} (h : '#' ∉ text) (comment : Option (List Char)) :
    (text ++ (comment.map ('#' :: ·)).getD []).takeWhile (· != '#') = text := by
  have hpos : ∀ c ∈ text, (c != '#') = true := fun c hc => bne_iff_ne.2 (ne_of_mem_of_not_mem hc h)
  rw [List.takeWhile_append_of_pos hpos]
  cases comment <;> simp

/-- The content of a well-formed line is its literal. -/
theorem lineContent_chars {l : TextLine} (h : l.wf) : lineContent l.chars = (l.value.map literalOf).getD [] := by
  obtain ⟨before, value, after, comment⟩ := l
  obtain ⟨hb, ha⟩ := h
  rw [List.all_eq_true] at hb ha
  have hdigit : ∀ c ∈ (value.map literalOf).getD [], c = '1' ∨ c = '0' := by
    cases value with
    | none => exact fun _ h => absurd h List.not_mem_nil
    | some b => exact fun _ => mem_literalOf
  have hhash : '#' ∉ before ++ (value.map literalOf).getD [] ++ after := by
    simp only [List.mem_append, not_or]
    exact ⟨⟨fun h => absurd (hb _ h) (by decide), fun h => absurd (hdigit _ h) (by decide)⟩,
      fun h => absurd (ha _ h) (by decide)⟩
  have hspace : ∀ c ∈ (value.map literalOf).getD [], ¬ c.isWhitespace := fun c hc => by
    rcases hdigit c hc with rfl | rfl <;> decide
  simp only [lineContent, TextLine.chars, takeWhile_before_comment hhash]
  exact strip_surrounded hb hspace ha

/-! ### The program text: the lines and the file -/

/-- A line with nothing on it consumes no address. -/
theorem programOfLines_blank {line : List Char} (h : lineContent line = []) (rest : List (List Char)) :
    programOfLines (line :: rest) = programOfLines rest := by
  simp only [programOfLines, h, if_true, except_bind_ok, List.nil_append]
  exact bind_pure _

theorem programOfLines_literal {line : List Char} {b : Byte} (hne : lineContent line ≠ [])
    (h : byteLiteral (lineContent line) = some b) (rest : List (List Char)) :
    programOfLines (line :: rest) = (b :: ·) <$> programOfLines rest := by
  simp only [programOfLines, if_neg hne, h, except_bind_ok]
  exact bind_pure_comp _ _

theorem programOfLines_chars {lines : List TextLine} (h : ∀ l ∈ lines, l.wf) :
    programOfLines (lines.map TextLine.chars) = .ok (lines.filterMap TextLine.value) := by
  induction lines with
  | nil => rfl
  | cons l lines ih =>
    obtain ⟨hl, hlines⟩ := List.forall_mem_cons.1 h
    have hcontent := lineContent_chars hl
    rw [List.map_cons, List.filterMap_cons]
    cases hv : l.value with
    | none => rw [programOfLines_blank (by rw [hcontent, hv]; rfl), ih hlines]
    | some b =>
      have hb : lineContent l.chars = literalOf b := by rw [hcontent, hv]; rfl
      rw [programOfLines_literal (hb ▸ literalOf_ne_nil b) (hb ▸ byteLiteral_literalOf b), ih hlines]
      rfl

/-- The model cuts a file into lines as the library splits a list (log 16). -/
theorem fileLines_eq_splitOn (text : List Char) : fileLines text = text.splitOn '\n' := by
  induction text with
  | nil => rfl
  | cons c cs ih =>
    rw [fileLines, List.splitOn_cons_eq_if_modifyHead, ih]
    by_cases hc : c = '\n'
    · simp [hc]
    · obtain ⟨l, ls, hs⟩ := List.exists_cons_of_ne_nil (List.splitOn_ne_nil '\n' cs)
      simp [hc, hs]

/-- Settles O40: the lines by induction, a file of lines by what splitting undoes. No line at all makes the empty file,
whose one line is blank. -/
theorem programTextGivesItsBytes : Obligations.ProgramTextGivesItsBytes := by
  intro lines h
  refine ⟨programOfLines_chars h, fun hnl => ?_⟩
  cases lines with
  | nil => rfl
  | cons l ls =>
    have hcut : fileLines (List.intercalate ['\n'] ((l :: ls).map TextLine.chars)) = (l :: ls).map TextLine.chars := by
      rw [fileLines_eq_splitOn]
      exact List.splitOn_intercalate _ (List.forall_mem_map.2 hnl) (List.cons_ne_nil _ _)
    rw [launchFile, hcut, programOfLines_chars h]
    rfl

/-! ### What the host shows -/

/-- A positive number's decimal numeral does not begin with 0: its leading digit is that of its tenth. -/
theorem head?_toDigits_ne_zero {n : Nat} (h : 0 < n) : (Nat.toDigits 10 n).head? ≠ some '0' := by
  induction n using Nat.strong_induction_on with
  | _ n ih =>
    rcases Nat.lt_or_ge n 10 with hlt | hge
    · rw [Nat.toDigits_of_lt_base hlt]
      interval_cases n <;> decide
    · rw [Nat.toDigits_of_base_le (by decide) hge, List.head?_append_of_ne_nil _ Nat.toDigits_ne_nil]
      exact ih (n / 10) (by omega) (by omega)

/-- Settles O41: 0 is shown as one digit, and every other value begins with another. -/
theorem outputIsRenderedInDecimal : Obligations.OutputIsRenderedInDecimal := by
  intro v
  refine ⟨Nat.toDigits_ne_nil, List.all_eq_true.2 fun c => Nat.isDigit_of_mem_toDigits (by decide) le_rfl,
    Nat.ofDigitChars_toDigits (by decide) le_rfl, fun hlen => head?_toDigits_ne_zero ?_⟩
  refine Nat.pos_of_ne_zero fun hv => ?_
  rw [renderValue, hv] at hlen
  exact absurd hlen (by decide)

/-- Settles O42: the exit code is a table of the status and, after a fault, of the cause. -/
theorem exitCodesAreAsTabulated : Obligations.ExitCodesAreAsTabulated := by
  refine ⟨fun s => ⟨fun hs => ?_, fun hs => ?_, fun hs => ⟨fun hc => ?_, fun hc => ?_, fun hc => ?_, fun hc => ?_⟩⟩,
    rfl, rfl⟩
  · simp only [exitCode, hs]
  · simp only [exitCode, hs]
  all_goals simp only [exitCode, hs, hc]

end Sys2Proof.Machine
